-- ==== Sys2Proof/Word.lean ====
section
/-! DEFINITION. The word types of the block: a byte and a 16-bit field (00_scope.md R9). -/

namespace Sys2Proof

/-- A byte: 8 bits, an unsigned integer 0 to 255 (R9). -/
abbrev Byte := BitVec 8

/-- A 16-bit unsigned integer, 0 to 65535: the raw value of a measurement field (R65, R110). -/
abbrev U16 := BitVec 16

end Sys2Proof
end

