-- ==== Sys2Proof/Config.lean ====
section
/-! DEFINITION. The parameters the spec leaves open (00_scope.md R6), each an opaque constant: no proof can see its value, so
a statement holds for every value of it. The constants the spec fixes (R5) stand in Machine/Params.lean. -/

namespace Sys2Proof.Config

/-- `SINK_EN[6:0]` as configured for the instance (R25, R30: "the instance's configured value"). Log 1. -/
opaque sinkEn : BitVec 7

/-- `REQ_PAD[0]` of the instance (R131, D11: OPEN). Log 1. -/
opaque reqPad0 : Byte

/-- `REQ_PAD[1]` of the instance (R131, D11: OPEN). Log 1. -/
opaque reqPad1 : Byte

/-- `to_float(raw, scale)` (R121, D7: OPEN): assumed only to be a total function of the pair. The result is the bit pattern,
as a number, of whatever format the host uses. Log 14. -/
opaque toFloat : U16 → Nat → Nat

end Sys2Proof.Config
end

