-- ==== Sys2Proof/Syntax.lean ====
section
/-! DEFINITION. The rows of spec/opcode_table.json as one inductive type, the seven channels, the Response Frame's fields, and the
words the host can present (30_encoding.md R60, R62, R66, R71). -/

namespace Sys2Proof

/-- The seven measurement channels, numbered 0 to 6 in this order (R25, D8). -/
inductive Channel where
  | pm1_0 | pm2_5 | pm4_0 | pm10_0 | voc | rh | temp
  deriving DecidableEq, Repr

/-- One value for each of the seven channels: `raw[0..6]`, `pub[0..6]`. The seven are one vector with no order among them
(R123, D9). -/
structure PerChannel (α : Type) where
  pm1_0 : α
  pm2_5 : α
  pm4_0 : α
  pm10_0 : α
  voc : α
  rh : α
  temp : α
  deriving DecidableEq, Repr

/-- The fields of a Response Frame (R62). `stop` is the field the spec calls `end`. -/
structure RspFrame where
  start : Byte
  rsv1 : Byte
  rsv2 : Byte
  pm1_0 : U16
  pm2_5 : U16
  pm4_0 : U16
  pm10_0 : U16
  voc : U16
  rh : U16
  temp : U16
  tail : BitVec 56
  crc : Byte
  stop : Byte
  deriving DecidableEq, Repr

/-- One constructor per row of spec/opcode_table.json (R71). -/
inductive Instr where
  /-- `PUSH b` (R80) -/
  | push (b : Byte)
  /-- `END` (R81); its `data` byte is ignored and not kept -/
  | endOp
  /-- `REQ` (R130); its `data` byte is ignored and not kept -/
  | req
  /-- `RESET`, the reset input (R160) -/
  | reset
  /-- `RSP`, a 26-byte frame presented whole: `DRAIN` of its bytes (R62, R70, R90) -/
  | rsp (f : RspFrame)
  /-- `REQF`, the 8-byte Request Frame with its two padding bytes (R66, R131) -/
  | reqf (pad0 pad1 : Byte)
  /-- `LENCHK`, stage 1 of `END` (R91) -/
  | lenchk
  /-- `BNDCHK`, stage 2 of `END` (R92) -/
  | bndchk
  /-- `CRCCHK`, stage 3 of `END` (R102) -/
  | crcchk
  /-- `FLDDEC`, stage 4 of `END` (R111) -/
  | flddec
  /-- `FLD.PM1_0` (R113) -/
  | fldPm1_0
  /-- `FLD.PM2_5` (R114) -/
  | fldPm2_5
  /-- `FLD.PM4_0` (R115) -/
  | fldPm4_0
  /-- `FLD.PM10_0` (R116) -/
  | fldPm10_0
  /-- `FLD.VOC` (R117) -/
  | fldVoc
  /-- `FLD.RH` (R118) -/
  | fldRh
  /-- `FLD.TEMP` (R119) -/
  | fldTemp
  /-- `DISPATCH`, stage 5 of `END` (R122) -/
  | dispatch
  /-- `CRC8.UPDATE`, the CRC byte step with its two operands (R100) -/
  | crc8Update (c b : Byte)
  deriving DecidableEq, Repr

/-- The opcode table's formats (30_encoding.md section 1). -/
inductive Format where
  | cmd | pin | rsp26 | req8 | stage | func
  deriving DecidableEq, Repr

/-- The format of an instruction's row (R71). -/
def Instr.format : Instr → Format
  | .push _ => .cmd
  | .endOp => .cmd
  | .req => .cmd
  | .reset => .pin
  | .rsp _ => .rsp26
  | .reqf _ _ => .req8
  | .lenchk => .stage
  | .bndchk => .stage
  | .crcchk => .stage
  | .flddec => .stage
  | .fldPm1_0 => .stage
  | .fldPm2_5 => .stage
  | .fldPm4_0 => .stage
  | .fldPm10_0 => .stage
  | .fldVoc => .stage
  | .fldRh => .stage
  | .fldTemp => .stage
  | .dispatch => .stage
  | .crc8Update _ _ => .func

/-- What the host presents to the block, one item per step. -/
inductive Input where
  /-- an 11-bit command word `op[2:0] ++ data[7:0]` (R60) -/
  | cmd (w : BitVec 11)
  /-- the reset input, asserted (R160) -/
  | rst
  /-- the 26 bytes of one drain, byte 0 most significant (R63, R70, R82; log 8) -/
  | rsp (f : BitVec 208)
  /-- a Request Frame, by the 16 bits its row leaves open, `REQ_PAD[0]` above `REQ_PAD[1]`; its other 48 bits are constant, so no other
  64 bits can be presented (R66, R67; log 9) -/
  | reqf (pad : BitVec 16)
  deriving DecidableEq, Repr

/-- The format a presented item is written in. -/
def Input.format : Input → Format
  | .cmd _ => .cmd
  | .rst => .pin
  | .rsp _ => .rsp26
  | .reqf _ => .req8

/-- Why a presented item is no instruction: a reserved command word is the only such item (R67, R151). -/
inductive BadWord where
  /-- a command word whose `op` is 0b000 or 0b100 to 0b111 (R61) -/
  | reservedOp (op : BitVec 3)
  deriving DecidableEq, Repr

end Sys2Proof
end

