-- ==== Sys2Proof/WellFormed.lean ====
section
/-! DEFINITION. When an instruction is well formed: its fields are what its row of the table admits (30_encoding.md R62, R64). -/

namespace Sys2Proof

/-- The boundary pattern of the `RSP` row: both markers are 0x7E (R64). The checksum "is not a bit pattern and is checked by
computation". -/
def RspFrame.wf (f : RspFrame) : Bool :=
  f.start == 0x7E#8 && f.stop == 0x7E#8

/-- An `RSP` row has both markers. Every other row admits every value of its operands: `PUSH` takes any byte (R80), `REQF` any
padding (R66), `CRC8.UPDATE` any two bytes (R100). -/
def Instr.wf : Instr → Bool
  | .push _ => true
  | .endOp => true
  | .req => true
  | .reset => true
  | .rsp f => f.wf
  | .reqf _ _ => true
  | .lenchk => true
  | .bndchk => true
  | .crcchk => true
  | .flddec => true
  | .fldPm1_0 => true
  | .fldPm2_5 => true
  | .fldPm4_0 => true
  | .fldPm10_0 => true
  | .fldVoc => true
  | .fldRh => true
  | .fldTemp => true
  | .dispatch => true
  | .crc8Update _ _ => true

end Sys2Proof
end

