-- ==== Sys2Proof/Decode.lean ====
section
/-! DEFINITION. The decoder of presented words and the encoder, both written from 30_encoding.md R60 to R66. -/

namespace Sys2Proof

/-- The `op` field `W[10:8]` of a command word (R60). -/
def cmdOp (w : BitVec 11) : BitVec 3 := w.extractLsb' 8 3

/-- The `data` field `W[7:0]` of a command word (R60). -/
def cmdData (w : BitVec 11) : Byte := w.extractLsb' 0 8

/-- The six literal bytes of a Request Frame, byte 0 most significant (R66). -/
def reqLiteral : BitVec 48 := 0x7E000301FB7E#48

/-- A command word by its `op`; the other five values are reserved (R60, R61). -/
def decodeCmd (w : BitVec 11) : Except BadWord Instr :=
  if cmdOp w = 1#3 then .ok (.push (cmdData w))
  else if cmdOp w = 2#3 then .ok .endOp
  else if cmdOp w = 3#3 then .ok .req
  else .error (.reservedOp (cmdOp w))

/-- The fields of the frame vector `F[207:0]` (R63). Every vector has fields: markers that are not 0x7E make a frame the block
rejects with cause 2, not a word it cannot read (R64, R67; log 8). -/
def decodeRsp (f : BitVec 208) : RspFrame where
  start := f.extractLsb' 200 8
  rsv1 := f.extractLsb' 192 8
  rsv2 := f.extractLsb' 184 8
  pm1_0 := f.extractLsb' 168 16
  pm2_5 := f.extractLsb' 152 16
  pm4_0 := f.extractLsb' 136 16
  pm10_0 := f.extractLsb' 120 16
  voc := f.extractLsb' 104 16
  rh := f.extractLsb' 88 16
  temp := f.extractLsb' 72 16
  tail := f.extractLsb' 16 56
  crc := f.extractLsb' 8 8
  stop := f.extractLsb' 0 8

/-- A Request Frame's padding, byte 6 above byte 7 (R66). "In a Request Frame nothing is decoded, so nothing is reserved" (R67). -/
def decodeReqf (pad : BitVec 16) : Instr := .reqf (pad.extractLsb' 8 8) (pad.extractLsb' 0 8)

/-- The padding of 64 bits that are a Request Frame by the row's match and mask 0xFFFFFFFFFFFF0000; `none` for 64 bits that are none
(R66). -/
def requestPadding (q : BitVec 64) : Option (BitVec 16) :=
  if q.extractLsb' 16 48 = reqLiteral then some (q.extractLsb' 0 16) else none

/-- The instruction a presented item stands for, or the name of what is wrong with it. No item decodes to a `STAGE` row ("which
the host cannot issue separately") nor to the `FUNC` row ("a function, not a decoded word") (R71; log 10). -/
def decode : Input → Except BadWord Instr
  | .cmd w => decodeCmd w
  | .rst => .ok .reset
  | .rsp f => .ok (.rsp (decodeRsp f))
  | .reqf pad => .ok (decodeReqf pad)

/-- `PUSH b` = `0x100 | b` (R80). -/
def pushWord (b : Byte) : BitVec 11 := 1#3 ++ b

/-- The canonical `END` word 0x200 (R81). -/
def endWord : BitVec 11 := 0x200#11

/-- The canonical `REQ` word 0x300 (R130). -/
def reqWord : BitVec 11 := 0x300#11

/-- The frame vector of a frame's fields, in the order of R62. -/
def encodeRsp (f : RspFrame) : BitVec 208 :=
  f.start ++ f.rsv1 ++ f.rsv2 ++ f.pm1_0 ++ f.pm2_5 ++ f.pm4_0 ++ f.pm10_0 ++ f.voc ++ f.rh ++ f.temp
    ++ f.tail ++ f.crc ++ f.stop

/-- The 64 bits of a Request Frame (R66). -/
def encodeReqf (pad0 pad1 : Byte) : BitVec 64 := reqLiteral ++ pad0 ++ pad1

/-- The operands of `CRC8.UPDATE` "laid side by side", `c` above `b` (R71). It is no word that is presented. -/
def crc8UpdateWord (c b : Byte) : BitVec 16 := c ++ b

/-- The item that presents an instruction; `none` for the rows that have no encoding of their own (R71). -/
def encode : Instr → Option Input
  | .push b => some (.cmd (pushWord b))
  | .endOp => some (.cmd endWord)
  | .req => some (.cmd reqWord)
  | .reset => some .rst
  | .rsp f => some (.rsp (encodeRsp f))
  | .reqf p0 p1 => some (.reqf (p0 ++ p1))
  | .lenchk => none
  | .bndchk => none
  | .crcchk => none
  | .flddec => none
  | .fldPm1_0 => none
  | .fldPm2_5 => none
  | .fldPm4_0 => none
  | .fldPm10_0 => none
  | .fldVoc => none
  | .fldRh => none
  | .fldTemp => none
  | .dispatch => none
  | .crc8Update _ _ => none

/-- Byte `i` of the frame vector: `F[207-8i : 200-8i]` (R63). -/
def frameByte (f : BitVec 208) (i : Nat) : Byte := f.extractLsb' (8 * (25 - i)) 8

/-- The 26 bytes of the frame vector, index 0 first (R63). -/
def frameBytes (f : BitVec 208) : List Byte := (List.range 26).map (frameByte f)

/-- The 26 bytes of a Response Frame in the order they are received (R62). -/
def RspFrame.bytes (f : RspFrame) : List Byte := frameBytes (encodeRsp f)

/-- `DRAIN b0 … b(n-1)` as the command words it expands to: `PUSH` of each byte, then `END` (R70). `TICK` and `DECODE` are
written with it; `POLL` is `REQ`. -/
def drainInputs (bs : List Byte) : List Input :=
  bs.map (fun b => Input.cmd (pushWord b)) ++ [.cmd endWord]

/-- The item that a word of the opcode table's width (in bits, or in whole bytes) presents: 1 or 8 bits are the reset input, 11 or
16 a command word, 64 a Request Frame where they match its row, 208 a Response Frame. Bits above a row's width must be 0 (log 23). -/
def presented (nbits w : Nat) : Option Input :=
  if nbits = 1 ∨ nbits = 8 then (if w = 1 then some .rst else none)
  else if nbits = 11 ∨ nbits = 16 then (if w < 2048 then some (.cmd (BitVec.ofNat 11 w)) else none)
  else if nbits = 64 then (if w < 2 ^ 64 then (requestPadding (BitVec.ofNat 64 w)).map .reqf else none)
  else if nbits = 208 then (if w < 2 ^ 208 then some (.rsp (BitVec.ofNat 208 w)) else none)
  else none

/-- The instruction the decoder reads from an opcode-table word of `nbits` bits, numbered as the table numbers them. -/
def decodeTableWord (nbits w : Nat) : Option Instr :=
  match presented nbits w with
  | none => none
  | some inp =>
    match decode inp with
    | .ok i => some i
    | .error _ => none

end Sys2Proof
end

