-- ==== Sys2Proof/Machine/Params.lean ====
section
/-! DEFINITION. The constants the source fixes (00_scope.md R5): "protocol constants fixed by the sensor's byte layout and must not
be altered". They are constants, not state (R31 b, R50). `FRAME_LEN` is written 26 where it is used;
`OFFSET` and `SCALE` stand in Machine/Operands.lean. -/

namespace Sys2Proof.Machine

/-- `MARKER`: the start marker and the end marker. -/
def marker : Byte := 0x7E#8

/-- `IDX_START`: the index of the start marker. -/
def idxStart : Nat := 0

/-- `IDX_END`: the index of the end marker. -/
def idxEnd : Nat := 25

/-- `IDX_CRC`: the index of the checksum byte. -/
def idxCrc : Nat := 24

/-- `CRC_FIRST`: the first index the CRC covers. -/
def crcFirst : Nat := 1

/-- `CRC_COUNT`: the number of bytes the CRC covers, indices 1 to 23. -/
def crcCount : Nat := 23

/-- `CRC_POLY`: the CRC-8 polynomial, the x^8 term implicit. -/
def crcPoly : Byte := 0x31#8

/-- `CRC_INIT`: the CRC-8 initial value. -/
def crcInit : Byte := 0xFF#8

/-- `REQ_LIT[0..5]`: the six literal request bytes. -/
def reqLit : List Byte := [0x7E#8, 0x00#8, 0x03#8, 0x01#8, 0xFB#8, 0x7E#8]

end Sys2Proof.Machine
end

