-- ==== Sys2Proof/Machine/State.lean ====
section
/-! DEFINITION. The state, the outputs, the reasons a step can stop, and the state after reset (10_state.md, 00_scope.md R8). -/

namespace Sys2Proof.Machine

/-- The frame buffer `FB` as (index, byte) cells, strictly rising indices, an unlisted index holding no value (R20, R21; log 2). -/
abbrev Memory := List Host.Cell

/-- The three reject causes (R140). -/
inductive Cause where
  /-- code 1: `LEN >= 1` and `LEN != 26` -/
  | length
  /-- code 2: a marker is wrong -/
  | boundary
  /-- code 3: the checksum is wrong -/
  | checksum
  deriving DecidableEq, Repr

/-- One published value: the pair (`raw_i`, `SCALE[i]`) (R8, R120). -/
structure Pub where
  raw : U16
  scale : Nat
  deriving DecidableEq, Repr

/-- The output record of one operation (R8). -/
inductive Output where
  /-- the operation outputs nothing: a `PUSH`, or an `END` of an empty buffer -/
  | silent
  /-- one diagnostic `diag(cause)` -/
  | diag (c : Cause)
  /-- the publish vector `pub[0..6]`, each entry present or absent -/
  | publish (pub : PerChannel (Option Pub))
  /-- one transmit record, its bytes in index order -/
  | transmit (tx : List Byte)
  deriving DecidableEq, Repr

/-- What stops the model where the spec's block would have no step to take. The block itself has no faults (R151): both are raised
only by a `STAGE` row executed outside `END`, and no step reaches them. -/
inductive Fault where
  /-- Raised by `BNDCHK`, `CRCCHK`, `FLDDEC` and the `FLD.*` rows when they read `FB[i]` at `i >= min(LEN, 26)`, where "the register
  holds no value" (R21; U9: "A model that did read one should `fault`"). Safe: the model stops. -/
  | fbNoValue (i : Nat)
  /-- Raised by `DISPATCH` when an attached channel's `raw[i]` has not been produced by a field read of the same `END` (R28, R111).
  Safe: the model stops. -/
  | rawNoValue (ch : Channel)
  deriving DecidableEq, Repr

/-- What the model gives no step. -/
inductive Refusal where
  /-- Raised by an arm of `exec` whose instruction has no meaning yet. Safe: the model stops. -/
  | notModelled (mnemonic : String)
  /-- Raised by `step` on a reserved command word: "A model refuses it (gives it no step)" (R61). Safe: the model stops. -/
  | reservedCommand (op : BitVec 3)
  deriving DecidableEq, Repr

/-- A value for each channel, absent on all of them. -/
def absent {α : Type} : PerChannel (Option α) := ⟨none, none, none, none, none, none, none⟩

/-- Everything the spec gives the block, the configuration it reads, the transient values of one `END`, and the host's two ends. -/
structure State where
  /-- `FB[0..25]` (R20) -/
  fb : Memory
  /-- `LEN`, 0 to 27, saturating (R22) -/
  len : BitVec 5
  /-- `SINK_EN[6:0]`, bit `i` for channel `i`; no operation writes it (R25; log 1) -/
  sinkEn : BitVec 7
  /-- `REQ_PAD[0]`; no operation writes it (R131; log 1) -/
  reqPad0 : Byte
  /-- `REQ_PAD[1]`; no operation writes it (R131; log 1) -/
  reqPad1 : Byte
  /-- the running CRC, transient: `none` between operations (R27, R30; log 4) -/
  crc : Option Byte
  /-- `raw[0..6]`, transient: absent between operations (R28, R90; log 4) -/
  raw : PerChannel (Option U16)
  /-- what the host has presented and the block has not executed, next first (R7; log 7) -/
  inputs : List Input
  /-- the observation: one record per operation, oldest first (R8; log 5) -/
  outs : List Output
  deriving DecidableEq, Repr

/-- The state after reset (R30, R160): `LEN == 0`, no `FB[i]` with a value, the configuration as the instance has it, nothing
presented and nothing output. -/
def State.reset : State where
  fb := []
  len := 0#5
  sinkEn := Config.sinkEn
  reqPad0 := Config.reqPad0
  reqPad1 := Config.reqPad1
  crc := none
  raw := absent
  inputs := []
  outs := []

end Sys2Proof.Machine
end

