-- ==== Sys2Proof/Machine/Operands.lean ====
section
/-! DEFINITION. Operand forms: the channel table, the join of two bytes into a field, the Request Frame's bytes
(43_field_extract.md, 44_request.md). -/

namespace Sys2Proof

/-- The number `i` of a channel (R25, D8). -/
def Channel.index : Channel → Nat
  | .pm1_0 => 0
  | .pm2_5 => 1
  | .pm4_0 => 2
  | .pm10_0 => 3
  | .voc => 4
  | .rh => 5
  | .temp => 6

/-- `OFFSET[i]`: the index of the field's high byte (R5, R111). -/
def Channel.offset : Channel → Nat
  | .pm1_0 => 3
  | .pm2_5 => 5
  | .pm4_0 => 7
  | .pm10_0 => 9
  | .voc => 11
  | .rh => 13
  | .temp => 15

/-- `SCALE[i]`: the divisor of the field (R5, R120). -/
def Channel.scale : Channel → Nat
  | .pm1_0 => 10
  | .pm2_5 => 10
  | .pm4_0 => 10
  | .pm10_0 => 10
  | .voc => 10
  | .rh => 100
  | .temp => 200

/-- The entry of one channel. -/
def PerChannel.get {α : Type} (v : PerChannel α) : Channel → α
  | .pm1_0 => v.pm1_0
  | .pm2_5 => v.pm2_5
  | .pm4_0 => v.pm4_0
  | .pm10_0 => v.pm10_0
  | .voc => v.voc
  | .rh => v.rh
  | .temp => v.temp

/-- The vector with one channel's entry replaced. -/
def PerChannel.set {α : Type} (v : PerChannel α) (ch : Channel) (x : α) : PerChannel α :=
  match ch with
  | .pm1_0 => { v with pm1_0 := x }
  | .pm2_5 => { v with pm2_5 := x }
  | .pm4_0 => { v with pm4_0 := x }
  | .pm10_0 => { v with pm10_0 := x }
  | .voc => { v with voc := x }
  | .rh => { v with rh := x }
  | .temp => { v with temp := x }

/-- The vector that holds `g ch` at each channel. -/
def PerChannel.tabulate {α : Type} (g : Channel → α) : PerChannel α :=
  ⟨g .pm1_0, g .pm2_5, g .pm4_0, g .pm10_0, g .voc, g .rh, g .temp⟩

/-- A frame's raw field of a channel (R62). -/
def RspFrame.field (f : RspFrame) : Channel → U16
  | .pm1_0 => f.pm1_0
  | .pm2_5 => f.pm2_5
  | .pm4_0 => f.pm4_0
  | .pm10_0 => f.pm10_0
  | .voc => f.voc
  | .rh => f.rh
  | .temp => f.temp

namespace Machine

/-- `be16(hi, lo) = (zext_16(hi) << 8) | zext_16(lo)` (R110). -/
def be16 (hi lo : Byte) : U16 := (hi.setWidth 16 <<< 8) ||| lo.setWidth 16

/-- The code of a reject cause (R140). -/
def Cause.code : Cause → Nat
  | .length => 1
  | .boundary => 2
  | .checksum => 3

/-- `REQ_ROM[0..7]` for a padding: the six literals, then the two padding bytes (R51, R131). -/
def requestBytes (pad0 pad1 : Byte) : List Byte := reqLit ++ [pad0, pad1]

/-- `SINK_EN[i]`: whether the channel's sink is attached (R25). -/
def State.attached (s : State) (ch : Channel) : Bool := s.sinkEn.getLsbD ch.index

end Machine

end Sys2Proof
end

