-- ==== Sys2Proof/Machine/Crc.lean ====
section
/-! DEFINITION. The CRC-8 unit: the byte step, the whole sequence, and the derived forms (42_crc8.md R100 to R105). -/

namespace Sys2Proof.Machine

/-- One of the eight iterations: test bit 7, shift left by one losing it, XOR 0x31 if it was set (R100). -/
def crcShift (x : Byte) : Byte :=
  if x.getLsbD 7 then (x <<< 1) ^^^ crcPoly else x <<< 1

/-- `crc8_update(c, b)`: fold one byte into the running CRC (R100). -/
def crc8Update (c b : Byte) : Byte :=
  crcShift (crcShift (crcShift (crcShift (crcShift (crcShift (crcShift (crcShift (c ^^^ b))))))))

/-- `crc8(s)`: start from 0xFF and fold the bytes in index order; no final XOR, no reflection (R101). -/
def crc8 (s : List Byte) : Byte := s.foldl crc8Update crcInit

/-- The parallel form of the byte step, a linear map of `x = c ^ b`, bit 7 first (R105). -/
def crc8Parallel (x : Byte) : Byte :=
  let b := x.getLsbD
  let y7 := b 5 ^^ b 3 ^^ b 2
  let y6 := b 7 ^^ b 4 ^^ b 2 ^^ b 1
  let y5 := b 7 ^^ b 6 ^^ b 3 ^^ b 1 ^^ b 0
  let y4 := b 7 ^^ b 6 ^^ b 3 ^^ b 0
  let y3 := b 7 ^^ b 6 ^^ b 3
  let y2 := b 6 ^^ b 5 ^^ b 2
  let y1 := b 7 ^^ b 5 ^^ b 4 ^^ b 1
  let y0 := b 6 ^^ b 4 ^^ b 3 ^^ b 0
  BitVec.ofBoolListBE [y7, y6, y5, y4, y3, y2, y1, y0]

/-- One `PUSH` of the streaming form: at indices 1 to 23 the hidden register folds the byte in, elsewhere it is left alone
(R104). It is not architectural state. -/
def crc8StreamStep (h : Byte) (index : Nat) (b : Byte) : Byte :=
  if 1 ≤ index ∧ index ≤ 23 then crc8Update h b else h

/-- The hidden register of the streaming form after a Raw Frame's bytes have been pushed from index `index` on (R104). -/
def crc8Stream (h : Byte) (index : Nat) : List Byte → Byte
  | [] => h
  | b :: bs => crc8Stream (crc8StreamStep h index b) (index + 1) bs

end Sys2Proof.Machine
end

