-- ==== Sys2Proof/Machine/Scaling.lean ====
section
/-! DEFINITION. What a published pair stands for: the exact rational, its rendering by the open `to_float`, and the spec's default
for that parameter (43_field_extract.md R120, R121). -/

namespace Sys2Proof.Machine

/-- The value of a published pair: the exact rational `raw / scale` (R120). -/
def Pub.value (p : Pub) : Rat := (p.raw.toNat : Rat) / (p.scale : Rat)

/-- The floating-point rendering of a published pair by the instance's `to_float` (R121). -/
def Pub.float (p : Pub) : Nat := Config.toFloat p.raw p.scale

/-- The left shift that brings `raw / scale` into 2^23 to 2^24, the range of a 24-bit significand. -/
def binary32Shift (raw scale : Nat) : Nat := 55 - Nat.log2 (raw * 2 ^ 32 / scale)

/-- The quotient of `num` by `den` rounded to the nearest integer, ties to even. -/
def divNearestEven (num den : Nat) : Nat :=
  let q := num / den
  let r := num % den
  if 2 * r < den then q
  else if den < 2 * r then q + 1
  else if q % 2 = 0 then q
  else q + 1

/-- The significand of the default rendering: `raw * 2^k / scale` rounded to nearest even. -/
def binary32Significand (raw scale : Nat) : Nat :=
  divNearestEven (raw * 2 ^ binary32Shift raw scale) scale

/-- The spec's default for `to_float`: IEEE 754 binary32, round to nearest, ties to even, of the exact quotient, for the 16-bit
`raw` values and the scales 10, 100, 200 (R121, G1). The exponent of the significand's unit is `-k`, so the biased exponent of a
significand in 2^23 to 2^24 is `150 - k`; a significand rounded up to 2^24 carries into it. No operation uses this function. -/
def binary32 (raw scale : Nat) : BitVec 32 :=
  if raw = 0 then 0#32
  else BitVec.ofNat 32 ((150 - binary32Shift raw scale) * 2 ^ 23 + binary32Significand raw scale - 2 ^ 23)

end Sys2Proof.Machine
end

