-- ==== Sys2Proof/Machine/Ops.lean ====
section
/-! DEFINITION. The named operations over the state: the frame buffer, the outputs, raising a reject (the one exceptional event the
spec has), closing a frame, chaining the stages of `END`, and taking what the host presents. -/

namespace Sys2Proof.Machine

/-- What `exec` and every meaning answer. -/
abbrev Result := Host.Outcome State Fault Refusal

/-- The byte listed at an index, if any. -/
def Memory.read : Memory → Nat → Option Byte
  | [], _ => none
  | (x, b) :: m, a => if a = x then some b else Memory.read m a

/-- The memory with the byte at one index replaced, in canonical form. -/
def Memory.write : Memory → Nat → Byte → Memory
  | [], a, v => [(a, v)]
  | (x, b) :: m, a, v =>
    if a < x then (a, v) :: (x, b) :: m
    else if a = x then (a, v) :: m
    else (x, b) :: Memory.write m a v

/-- Indices strictly rising from `lo` on, all below 26. -/
def Memory.wfFrom : Nat → Memory → Bool
  | _, [] => true
  | lo, (x, _) :: m => decide (lo ≤ x) && decide (x < 26) && Memory.wfFrom (x + 1) m

/-- The canonical form of the frame buffer: strictly rising indices, all in 0 to 25 (R20, R47). An unlisted index holds no value, so
no entry can equal what it reads as. -/
def Memory.wf (m : Memory) : Bool := Memory.wfFrom 0 m

/-- `FB <- m`. -/
def State.setFb (s : State) (m : Memory) : State := { s with fb := m }

/-- `LEN <- n`. -/
def State.setLen (s : State) (n : BitVec 5) : State := { s with len := n }

/-- The transient running CRC. -/
def State.setCrc (s : State) (c : Option Byte) : State := { s with crc := c }

/-- The transient raw values. -/
def State.setRaw (s : State) (r : PerChannel (Option U16)) : State := { s with raw := r }

/-- What the host has presented. -/
def State.setInputs (s : State) (is : List Input) : State := { s with inputs := is }

/-- `emit x`: one more output record (R8, R11). -/
def State.emit (s : State) (o : Output) : State := { s with outs := s.outs ++ [o] }

/-- `MemWrite(i, 1, b)`: `FB[i] <- b` (R11). -/
def State.writeFb (s : State) (i : Nat) (b : Byte) : State := s.setFb (s.fb.write i b)

/-- `MemRead(i, 1) = FB[i]`, which holds a value only for `i < min(LEN, 26)` (R11, R21). A stale byte at or above that bound is not
readable (U9). -/
def State.readFb (s : State) (i : Nat) : Except Fault Byte :=
  if i < min s.len.toNat 26 then
    match s.fb.read i with
    | some b => .ok b
    | none => .error (.fbNoValue i)
  else .error (.fbNoValue i)

/-- `MemRead(i, 2)`: the byte at `i` most significant (R11, R40, R110). -/
def State.readFb16 (s : State) (i : Nat) : Except Fault U16 :=
  match s.readFb i with
  | .error e => .error e
  | .ok hi =>
    match s.readFb (i + 1) with
    | .error e => .error e
    | .ok lo => .ok (be16 hi lo)

/-- The `n` bytes from index `i` on, in index order. -/
def State.readFbRange (s : State) (i : Nat) : Nat → Except Fault (List Byte)
  | 0 => .ok []
  | n + 1 =>
    match s.readFb i with
    | .error e => .error e
    | .ok b =>
      match State.readFbRange s (i + 1) n with
      | .error e => .error e
      | .ok bs => .ok (b :: bs)

/-- Close the Raw Frame: `LEN <- 0` "in every case" (R81), and the transient values cease to exist (R27, R28). The bytes of `FB`
stay, unreadable (R21; log 3). -/
def State.discard (s : State) : State := ((s.setLen 0#5).setCrc none).setRaw absent

/-- `raise Reject(cause)`: emit `diag(cause)`, skip the remaining stages, publish nothing, `LEN <- 0`, nothing saved (R143, R11).
There is no return from it (R144). -/
def State.raiseReject (c : Cause) (s : State) : State := (s.emit (.diag c)).discard

/-- How a stage of `END` ends: the next stage runs, or the frame is rejected, or the stage read what holds no value. -/
inductive StageEnd where
  | pass (s : State)
  | reject (c : Cause) (s : State)
  | stop (f : Fault)
  deriving DecidableEq, Repr

/-- "each stage short-circuiting on failure" (R90). -/
def StageEnd.andThen (r : StageEnd) (next : State → StageEnd) : StageEnd :=
  match r with
  | .pass s => next s
  | .reject c s => .reject c s
  | .stop f => .stop f

/-- A stage's end as the outcome of a step: a reject is an ordinary next state with a `diag` output (R146). -/
def StageEnd.outcome : StageEnd → Result
  | .pass s => .next s
  | .reject c s => .next (s.raiseReject c)
  | .stop f => .fault f

/-- Append one received byte (R80): the effect of one `PUSH`. The record it outputs is empty (R8). -/
def State.pushByte (s : State) (b : Byte) : State :=
  if s.len.toNat ≤ 25 then ((s.writeFb s.len.toNat b).setLen (s.len + 1#5)).emit .silent
  else if s.len = 26#5 then (s.setLen 27#5).emit .silent
  else s.emit .silent

/-- Append the bytes of a drain, first byte first (R70). -/
def State.pushBytes (s : State) (bs : List Byte) : State := bs.foldl State.pushByte s

/-- The next item the host has presented, and the state without it. -/
def State.fetch (s : State) : Option (Input × State) :=
  match s.inputs with
  | [] => none
  | inp :: rest => some (inp, s.setInputs rest)

/-- The refusal a word that is no instruction ends in (R61). -/
def refusalOf : BadWord → Refusal
  | .reservedOp op => .reservedCommand op

end Sys2Proof.Machine
end

