-- ==== Sys2Proof/Machine/Flags.lean ====
section
/-! DEFINITION. The block has no status flags (10_state.md R26). What stands in their place are the verdicts of the three checks, which
"exist only inside one `END`" and are kept nowhere. -/

namespace Sys2Proof.Machine

/-- Stage 1: the length is exactly 26 (R91). -/
def State.lengthOk (s : State) : Bool := s.len == 26#5

/-- Stage 2: `FB[0]` and `FB[25]` are both the marker (R92). -/
def State.boundaryOk (s : State) : Except Fault Bool :=
  match s.readFb idxStart with
  | .error e => .error e
  | .ok b0 =>
    match s.readFb idxEnd with
    | .error e => .error e
    | .ok b25 => .ok (b0 == marker && b25 == marker)

/-- Stage 3: the CRC-8 of `FB[1]` to `FB[23]` is `FB[24]` (R102). -/
def State.checksumOk (s : State) : Except Fault Bool :=
  match s.readFbRange crcFirst crcCount with
  | .error e => .error e
  | .ok covered =>
    match s.readFb idxCrc with
    | .error e => .error e
    | .ok b24 => .ok (crc8 covered == b24)

end Sys2Proof.Machine
end

