-- ==== Sys2Proof/Machine/Stages.lean ====
section
/-! DEFINITION. The stages of `END` (41_frame_check.md, 42_crc8.md, 43_field_extract.md) and the rows of the opcode table that stand for
them: `LENCHK`, `BNDCHK`, `CRCCHK`, `FLDDEC`, the seven `FLD.*`, `DISPATCH` and `CRC8.UPDATE`. -/

namespace Sys2Proof.Machine

/-- `if LEN != 26 then raise Reject(1)` (R91). -/
def lenchkStage (s : State) : StageEnd :=
  if s.lengthOk then .pass s else .reject .length s

/-- `if FB[0] != 0x7E or FB[25] != 0x7E then raise Reject(2)` (R92). -/
def bndchkStage (s : State) : StageEnd :=
  match s.boundaryOk with
  | .error e => .stop e
  | .ok ok => if ok then .pass s else .reject .boundary s

/-- `if crc8(FB[1..23]) != FB[24] then raise Reject(3)` (R102). The running CRC is compared and dropped (R27). -/
def crcchkStage (s : State) : StageEnd :=
  match s.checksumOk with
  | .error e => .stop e
  | .ok ok => if ok then .pass s else .reject .checksum s

/-- `raw[i] <- be16(FB[OFFSET[i]], FB[OFFSET[i]+1])` for one channel (R111). -/
def fieldStage (ch : Channel) (s : State) : StageEnd :=
  match s.readFb16 ch.offset with
  | .error e => .stop e
  | .ok r => .pass (s.setRaw (s.raw.set ch (some r)))

/-- The seven field reads (R111). -/
def flddecStage (s : State) : StageEnd :=
  ((((((fieldStage .pm1_0 s).andThen (fieldStage .pm2_5)).andThen (fieldStage .pm4_0)).andThen
    (fieldStage .pm10_0)).andThen (fieldStage .voc)).andThen (fieldStage .rh)).andThen (fieldStage .temp)

/-- An attached channel whose `raw[i]` has not been produced. -/
def State.missingRaw (s : State) : Option Channel :=
  [Channel.pm1_0, .pm2_5, .pm4_0, .pm10_0, .voc, .rh, .temp].find? (fun ch => (s.raw.get ch).isNone && s.attached ch)

/-- The publish vector: `pub[i] = (raw[i], SCALE[i])` where `SINK_EN[i] == 1`, absent elsewhere (R122). -/
def State.publishVector (s : State) : PerChannel (Option Pub) :=
  PerChannel.tabulate fun ch =>
    if s.attached ch then (s.raw.get ch).map (fun r => ⟨r, ch.scale⟩) else none

/-- Stage 5: the publish vector is emitted as a whole (R122). -/
def dispatchStage (s : State) : StageEnd :=
  match s.missingRaw with
  | some ch => .stop (.rawNoValue ch)
  | none => .pass (s.emit (.publish s.publishVector))

/-- `decode()`: the five stages in order, each short-circuiting on failure (R90). -/
def decodePipeline (s : State) : StageEnd :=
  ((((lenchkStage s).andThen bndchkStage).andThen crcchkStage).andThen flddecStage).andThen dispatchStage

/-- `LENCHK` (R91). -/
def execLenchk (s : State) : Result := (lenchkStage s).outcome

/-- `BNDCHK` (R92). -/
def execBndchk (s : State) : Result := (bndchkStage s).outcome

/-- `CRCCHK` (R102). -/
def execCrcchk (s : State) : Result := (crcchkStage s).outcome

/-- `FLDDEC` (R111). -/
def execFlddec (s : State) : Result := (flddecStage s).outcome

/-- `FLD.PM1_0` (R113). -/
def execFldPm1_0 (s : State) : Result := (fieldStage .pm1_0 s).outcome

/-- `FLD.PM2_5` (R114). -/
def execFldPm2_5 (s : State) : Result := (fieldStage .pm2_5 s).outcome

/-- `FLD.PM4_0` (R115). -/
def execFldPm4_0 (s : State) : Result := (fieldStage .pm4_0 s).outcome

/-- `FLD.PM10_0` (R116). -/
def execFldPm10_0 (s : State) : Result := (fieldStage .pm10_0 s).outcome

/-- `FLD.VOC` (R117). -/
def execFldVoc (s : State) : Result := (fieldStage .voc s).outcome

/-- `FLD.RH` (R118). -/
def execFldRh (s : State) : Result := (fieldStage .rh s).outcome

/-- `FLD.TEMP` (R119). -/
def execFldTemp (s : State) : Result := (fieldStage .temp s).outcome

/-- `DISPATCH` (R122). -/
def execDispatch (s : State) : Result := (dispatchStage s).outcome

/-- `CRC8.UPDATE`: its 8-bit result becomes the running CRC; no other state is read or written (R100, R27; log 12). -/
def execCrc8Update (c b : Byte) (s : State) : Result := .next (s.setCrc (some (crc8Update c b)))

end Sys2Proof.Machine
end

