-- ==== Sys2Proof/Machine/Assembler.lean ====
section
/-! DEFINITION. `PUSH`, `END` and a whole Response Frame as one drain (40_assembler.md R80 to R82, 30_encoding.md R70). -/

namespace Sys2Proof.Machine

/-- The tail of `END`: `LEN <- 0` after whatever `decode()` answered (R81). -/
def closeFrame : Result → Result
  | .next s => .next s.discard
  | .fault f => .fault f
  | .refused r => .refused r

/-- `END`: nothing for an empty buffer, else `decode()`; then discard (R81). -/
def endOperation (s : State) : Result :=
  if s.len = 0#5 then .next (s.emit .silent).discard
  else closeFrame (decodePipeline s).outcome

/-- `PUSH b` (R80). -/
def execPush (b : Byte) (s : State) : Result := .next (s.pushByte b)

/-- `END` (R81). -/
def execEndOp (s : State) : Result := endOperation s

/-- `RSP`: `DRAIN` of the frame's 26 bytes: `PUSH` each of them, then `END` (R70, R82). From `LEN == 0` it is `DECODE`. -/
def execRsp (f : RspFrame) (s : State) : Result := endOperation (s.pushBytes f.bytes)

end Sys2Proof.Machine
end

