-- ==== Sys2Proof/Machine/Request.lean ====
section
/-! DEFINITION. The Request Emitter (44_request.md R130 to R134) and the reset input (70_reset_and_hazards.md R160). -/

namespace Sys2Proof.Machine

/-- `REQ`: emit the 8 bytes of `REQ_ROM` as one transmit record; no state is read but the padding, none is written (R130, R133). -/
def execReq (s : State) : Result := .next (s.emit (.transmit (requestBytes s.reqPad0 s.reqPad1)))

/-- `REQF`: emit the Request Frame whose two padding bytes the word carries (R66, R131; log 9). -/
def execReqf (pad0 pad1 : Byte) (s : State) : Result := .next (s.emit (.transmit (requestBytes pad0 pad1)))

/-- `RESET`: `LEN <- 0`; nothing else is written and nothing is output (R160; log 6). -/
def execReset (s : State) : Result := .next (s.setLen 0#5)

end Sys2Proof.Machine
end

