-- ==== Sys2Proof/Machine/Dispatch.lean ====
section
/-! DEFINITION. One arm per row of the opcode table, each one call of that row's meaning. -/

namespace Sys2Proof.Machine

def exec (i : Instr) (s : State) : Host.Outcome State Fault Refusal :=
  match i with
  | .push b => Sys2Proof.Machine.execPush b s
  | .endOp => Sys2Proof.Machine.execEndOp s
  | .req => Sys2Proof.Machine.execReq s
  | .reset => Sys2Proof.Machine.execReset s
  | .rsp f => Sys2Proof.Machine.execRsp f s
  | .reqf pad0 pad1 => Sys2Proof.Machine.execReqf pad0 pad1 s
  | .lenchk => Sys2Proof.Machine.execLenchk s
  | .bndchk => Sys2Proof.Machine.execBndchk s
  | .crcchk => Sys2Proof.Machine.execCrcchk s
  | .flddec => Sys2Proof.Machine.execFlddec s
  | .fldPm1_0 => Sys2Proof.Machine.execFldPm1_0 s
  | .fldPm2_5 => Sys2Proof.Machine.execFldPm2_5 s
  | .fldPm4_0 => Sys2Proof.Machine.execFldPm4_0 s
  | .fldPm10_0 => Sys2Proof.Machine.execFldPm10_0 s
  | .fldVoc => Sys2Proof.Machine.execFldVoc s
  | .fldRh => Sys2Proof.Machine.execFldRh s
  | .fldTemp => Sys2Proof.Machine.execFldTemp s
  | .dispatch => Sys2Proof.Machine.execDispatch s
  | .crc8Update c b => Sys2Proof.Machine.execCrc8Update c b s

end Sys2Proof.Machine
end

