-- ==== Sys2Proof/Machine/Step.lean ====
section
/-! DEFINITION. One step: the block takes the next item the host has presented and executes it whole (00_scope.md R7). -/

namespace Sys2Proof.Machine

/-- With nothing presented the block is idle; a word that is no instruction is refused by name (R61); every other item is executed by
`exec`, which sees the state without it. -/
def step (s : State) : Host.Outcome State Fault Refusal :=
  match s.fetch with
  | none => .next s
  | some (inp, t) =>
    match decode inp with
    | .ok i => exec i t
    | .error e => .refused (refusalOf e)

/-- The state with an opcode-table word presented next, before anything else the host has presented; with nothing presented where the
table has no such word. -/
def State.withFetchWord (s : State) (nbits w : Nat) : State :=
  match presented nbits w with
  | some inp => s.setInputs (inp :: s.inputs)
  | none => s.setInputs []

end Sys2Proof.Machine
end

