-- ==== Sys2Proof/Safety.lean ====
section
/-! DEFINITION. What claims are stated in: the invariant of every step, and the source's decoder on an unbounded Raw Frame, written from
the rules about byte sequences (10_state.md R23, 41_frame_check.md R94) and not from the registers. -/

namespace Sys2Proof.Machine

/-- What holds between operations: the buffer is in canonical form, `LEN` is at most 27 (R22), every `FB[i]` with
`i < min(LEN, 26)` has a value (R21), and the transient values do not exist (R27, R28, R30). -/
structure State.Inv (s : State) : Prop where
  wf : s.fb.wf = true
  len_le : s.len.toNat ≤ 27
  written : ∀ i, i < min s.len.toNat 26 → (s.fb.read i).isSome
  noCrc : s.crc = none
  noRaw : s.raw = absent

/-- The bytes of a full frame buffer: `LEN == 26` and `FB[i]` is `frame[i]` for every index 0 to 25. -/
structure State.Holds (s : State) (frame : List Byte) : Prop where
  full : s.len = 26#5
  length : frame.length = 26
  byte : ∀ i, i < 26 → s.readFb i = .ok (frame.getD i 0#8)

/-- A byte sequence of 26 bytes has both markers in place (R94 case B). -/
def hasMarkers (frame : List Byte) : Bool :=
  frame.getD 0 0#8 == 0x7E#8 && frame.getD 25 0#8 == 0x7E#8

/-- A byte sequence of 26 bytes has the CRC-8 of its bytes 1 to 23 at byte 24 (R94 case C). -/
def hasChecksum (frame : List Byte) : Bool :=
  crc8 ((frame.drop 1).take 23) == frame.getD 24 0#8

/-- `raw_i` of a byte sequence: `(byte[OFFSET[i]] << 8) | byte[OFFSET[i]+1]` (R65). -/
def rawField (frame : List Byte) (ch : Channel) : U16 :=
  be16 (frame.getD ch.offset 0#8) (frame.getD (ch.offset + 1) 0#8)

/-- `pub[0..6]` of a valid frame for a `SINK_EN` (R122). -/
def publishOf (sinkEn : BitVec 7) (frame : List Byte) : PerChannel (Option Pub) :=
  PerChannel.tabulate fun ch =>
    if sinkEn.getLsbD ch.index then some ⟨rawField frame ch, ch.scale⟩ else none

/-- What `END` outputs for the sequence of all bytes pushed since the buffer was last empty (R23, R94): nothing for the empty
sequence, else case L, B, C or V, tested in this order. -/
def frameOutput (sinkEn : BitVec 7) (bytes : List Byte) : Output :=
  if bytes.length = 0 then .silent
  else if bytes.length ≠ 26 then .diag .length
  else if hasMarkers bytes = false then .diag .boundary
  else if hasChecksum bytes = false then .diag .checksum
  else .publish (publishOf sinkEn bytes)

/-- The opcode table's row that reads a channel's field (R113 to R119). -/
def fieldInstr : Channel → Instr
  | .pm1_0 => .fldPm1_0
  | .pm2_5 => .fldPm2_5
  | .pm4_0 => .fldPm4_0
  | .pm10_0 => .fldPm10_0
  | .voc => .fldVoc
  | .rh => .fldRh
  | .temp => .fldTemp

/-- The seven field rows in channel order. -/
def fieldRows : List Instr := [.fldPm1_0, .fldPm2_5, .fldPm4_0, .fldPm10_0, .fldVoc, .fldRh, .fldTemp]

/-- The five stages of `END` in the order of R90. -/
def stageRows : List Instr := [.lenchk, .bndchk, .crcchk, .flddec, .dispatch]

/-- Whether the last output record is a diagnostic that `before` did not have. -/
def rejectedSince (before after : State) : Bool :=
  decide (before.outs.length < after.outs.length) &&
    match after.outs.getLast? with
    | some (.diag _) => true
    | _ => false

/-- Rows executed one after another by `exec`, ending at the first that rejects, faults or is refused (R90: "each stage
short-circuiting on failure"). -/
def runRows : List Instr → State → Result
  | [], s => .next s
  | i :: is, s =>
    match exec i s with
    | .next t => if rejectedSince s t then .next t else runRows is t
    | .fault f => .fault f
    | .refused r => .refused r

end Sys2Proof.Machine
end

