-- ==== Sys2Proof/Certificates/Slice0/Obligations.lean ====
section
/-! DEFINITION. The statements for the provers, one definition each; OBLIGATIONS.json lists them. -/

open Sys2Proof Sys2Proof.Machine

section Presentation

/-- R7, R151 and log 7: the next presented item that decodes to an instruction is executed by `exec` on the state without that item. -/
def Obligations.StepRunsPresentedInstruction : Prop :=
  ∀ (s : State) (inp : Input) (rest : List Input) (i : Instr),
    s.inputs = inp :: rest → decode inp = .ok i → step s = exec i (s.setInputs rest)

/-- R151 and log 7: with nothing presented the block is idle. -/
def Obligations.StepIdleWithoutInput : Prop :=
  ∀ s : State, s.inputs = [] → step s = .next s

/-- R61: a reserved command word (0x000 to 0x0FF and 0x400 to 0x7FF) is refused, by its `op`. -/
def Obligations.ReservedCommandRefused : Prop :=
  ∀ (s : State) (w : BitVec 11) (rest : List Input),
    s.inputs = .cmd w :: rest → (w.toNat < 0x100 ∨ 0x400 ≤ w.toNat) →
      step s = .refused (.reservedCommand (w.extractLsb' 8 3))

/-- R60: the three operations by their match and mask over the 11 bits, `data` being the low byte; every other `op` is reserved. -/
def Obligations.CommandWordsByMatchAndMask : Prop :=
  ∀ w : BitVec 11,
    (w &&& 0x700#11 = 0x100#11 → decode (.cmd w) = .ok (.push (w.setWidth 8))) ∧
    (w &&& 0x700#11 = 0x200#11 → decode (.cmd w) = .ok .endOp) ∧
    (w &&& 0x700#11 = 0x300#11 → decode (.cmd w) = .ok .req) ∧
    (w &&& 0x700#11 ≠ 0x100#11 → w &&& 0x700#11 ≠ 0x200#11 → w &&& 0x700#11 ≠ 0x300#11 →
      decode (.cmd w) = .error (.reservedOp (w.extractLsb' 8 3)))

/-- Sample words of 95_test_vectors.md "Command words", 30_encoding.md R63, R66, R71 and the reset input of R160, written out from the
encodings. That a command word may stand in 16 bits and the 1-bit reset input in 8, with the bits above 0, is the model's choice:
log 23. That a Request Frame's word can be presented at all is log 9. -/
def Obligations.SampleWordsDecode : Prop :=
  decodeTableWord 11 0x17E = some (.push 0x7E#8) ∧
  decodeTableWord 16 0x1FF = some (.push 0xFF#8) ∧
  decodeTableWord 11 0x200 = some .endOp ∧
  decodeTableWord 11 0x2FF = some .endOp ∧
  decodeTableWord 11 0x300 = some .req ∧
  decodeTableWord 11 0x0FF = none ∧
  decodeTableWord 11 0x400 = none ∧
  decodeTableWord 1 1 = some .reset ∧
  decodeTableWord 8 1 = some .reset ∧
  decodeTableWord 64 0x7E000301FB7E1234 = some (.reqf 0x12#8 0x34#8) ∧
  decodeTableWord 64 0x7E000301577E1234 = none ∧
  decodeTableWord 208 0x7E001E007B002D00430059000A1194119400000000000000987E =
    some (.rsp ⟨0x7E#8, 0x00#8, 0x1E#8, 123#16, 45#16, 67#16, 89#16, 10#16, 4500#16, 4500#16, 0#56, 0x98#8, 0x7E#8⟩)

/-- Decode of encode is the instruction, with every operand at every value, for every row that can be presented; the 64 bits and the
208 bits of the two frame rows decode to their fields. -/
def Obligations.DecodeOfEncode : Prop :=
  (∀ (i : Instr) (inp : Input), encode i = some inp → decode inp = .ok i) ∧
  (∀ p0 p1 : Byte, decodeTableWord 64 (encodeReqf p0 p1).toNat = some (.reqf p0 p1)) ∧
  (∀ f : RspFrame, decodeTableWord 208 (encodeRsp f).toNat = some (.rsp f))

/-- An item that decodes is the encoding of what it decodes to, but for the ignored `data` byte of `END` and `REQ` (R60); a 64-bit
word that decodes is the Request Frame with its padding (R66). -/
def Obligations.EncodeOfDecode : Prop :=
  (∀ (inp : Input) (i : Instr), decode inp = .ok i →
    encode i = some inp ∨
    (∃ w, inp = .cmd w ∧ (i = .endOp ∧ w &&& 0x700#11 = endWord ∨ i = .req ∧ w &&& 0x700#11 = reqWord))) ∧
  (∀ (w : Nat) (i : Instr), decodeTableWord 64 w = some i → ∃ p0 p1, i = .reqf p0 p1 ∧ w = (encodeReqf p0 p1).toNat)

/-- R63, R65: each measurement field of a frame vector is the big-endian join of its two bytes, and each one-byte field the byte at
its index. -/
def Obligations.FrameFieldsAreItsBytes : Prop :=
  ∀ f : BitVec 208,
    (∀ ch : Channel, (decodeRsp f).field ch = be16 (frameByte f ch.offset) (frameByte f (ch.offset + 1))) ∧
    (decodeRsp f).start = frameByte f 0 ∧ (decodeRsp f).rsv1 = frameByte f 1 ∧ (decodeRsp f).rsv2 = frameByte f 2 ∧
    (decodeRsp f).crc = frameByte f 24 ∧ (decodeRsp f).stop = frameByte f 25 ∧
    (∀ k, k < 7 → (decodeRsp f).tail.extractLsb' (8 * (6 - k)) 8 = frameByte f (17 + k))

/-- R62: the bytes of a Response Frame in the order they are received. -/
def Obligations.ResponseFrameByteOrder : Prop :=
  ∀ f : RspFrame, f.bytes =
    [f.start, f.rsv1, f.rsv2,
     f.pm1_0.extractLsb' 8 8, f.pm1_0.extractLsb' 0 8, f.pm2_5.extractLsb' 8 8, f.pm2_5.extractLsb' 0 8,
     f.pm4_0.extractLsb' 8 8, f.pm4_0.extractLsb' 0 8, f.pm10_0.extractLsb' 8 8, f.pm10_0.extractLsb' 0 8,
     f.voc.extractLsb' 8 8, f.voc.extractLsb' 0 8, f.rh.extractLsb' 8 8, f.rh.extractLsb' 0 8,
     f.temp.extractLsb' 8 8, f.temp.extractLsb' 0 8,
     f.tail.extractLsb' 48 8, f.tail.extractLsb' 40 8, f.tail.extractLsb' 32 8, f.tail.extractLsb' 24 8,
     f.tail.extractLsb' 16 8, f.tail.extractLsb' 8 8, f.tail.extractLsb' 0 8, f.crc, f.stop]

/-- R64: a frame vector has the two markers exactly when it agrees with the row's match under its mask. -/
def Obligations.MarkersAreMatchUnderMask : Prop :=
  ∀ f : BitVec 208, (decodeRsp f).wf = true ↔
    f &&& 0xFF000000000000000000000000000000000000000000000000FF#208 =
      0x7E0000000000000000000000000000000000000000000000007E#208

end Presentation

section Assembler

/-- R80: `PUSH b`, the word `0x100 | b`, completes in every state, in the three cases of its pseudocode, and outputs nothing. -/
def Obligations.PushAppendsByte : Prop :=
  ∀ (s : State) (b : Byte), decode (.cmd (0x100#11 ||| b.setWidth 11)) = .ok (.push b) ∧
    (s.len.toNat ≤ 25 → exec (.push b) s =
      .next { s with fb := s.fb.write s.len.toNat b, len := s.len + 1#5, outs := s.outs ++ [.silent] }) ∧
    (s.len.toNat = 26 → exec (.push b) s = .next { s with len := 27#5, outs := s.outs ++ [.silent] }) ∧
    (27 ≤ s.len.toNat → exec (.push b) s = .next { s with outs := s.outs ++ [.silent] })

/-- R80, R21: the frame of `PUSH`: the one byte stored is at index `LEN`, and only when `LEN <= 25`; every other index reads as
before; every byte that was readable stays readable with its value; the byte stored becomes readable; the configuration, the transient values and
the presented inputs are unchanged; one empty record is output. -/
def Obligations.PushFrame : Prop :=
  ∀ (s t : State) (b : Byte), exec (.push b) s = .next t →
    (∀ a, ¬ (s.len.toNat ≤ 25 ∧ a = s.len.toNat) → t.fb.read a = s.fb.read a) ∧
    (∀ i, i < min s.len.toNat 26 → t.readFb i = s.readFb i) ∧
    (s.len.toNat ≤ 25 → t.readFb s.len.toNat = .ok b ∧ t.len.toNat = s.len.toNat + 1) ∧
    t.sinkEn = s.sinkEn ∧ t.reqPad0 = s.reqPad0 ∧ t.reqPad1 = s.reqPad1 ∧ t.crc = s.crc ∧ t.raw = s.raw ∧
    t.inputs = s.inputs ∧ t.outs = s.outs ++ [.silent]

/-- R23: after the bytes `S` have been pushed into an empty buffer, `LEN == min(n, 27)` and `FB[i] == S[i]` for every
`i < min(n, 26)`. -/
def Obligations.PushedBytesFillBuffer : Prop :=
  ∀ (s : State) (bytes : List Byte) (rest : List Input),
    s.len = 0#5 → s.inputs = bytes.map (fun b => Input.cmd (pushWord b)) ++ rest →
      ∃ t, Host.Core.run core bytes.length s = .next t ∧ t.inputs = rest ∧
        t.len.toNat = min bytes.length 27 ∧ (∀ i, i < min bytes.length 26 → t.readFb i = .ok (bytes.getD i 0#8)) ∧
        t.sinkEn = s.sinkEn ∧ t.outs = s.outs ++ List.replicate bytes.length .silent

/-- R23, R70, R94: one drain of any byte sequence into an empty buffer outputs nothing for each byte and then, at its `END`, what the
classification of R94 gives for the whole sequence (nothing for the empty sequence: R81, R152); it leaves the buffer empty. -/
def Obligations.DrainOutputsClassification : Prop :=
  ∀ (s : State) (bytes : List Byte) (rest : List Input),
    s.len = 0#5 → s.inputs = drainInputs bytes ++ rest →
      ∃ t, Host.Core.run core (bytes.length + 1) s = .next t ∧ t.inputs = rest ∧ t.len = 0#5 ∧
        t.outs = s.outs ++ List.replicate bytes.length .silent ++ [frameOutput s.sinkEn bytes] ∧
        t.sinkEn = s.sinkEn ∧ t.reqPad0 = s.reqPad0 ∧ t.reqPad1 = s.reqPad1

/-- R152: an `END` of an empty buffer emits nothing, not even a diagnostic. (That the transient values are gone afterwards is the
model's way of saying that they do not exist between operations: log 4.) -/
def Obligations.EndOfEmptyBufferIsSilent : Prop :=
  ∀ s : State, s.len = 0#5 → exec .endOp s =
    .next { s with len := 0#5, crc := none, raw := absent, outs := s.outs ++ [.silent] }

/-- R91, R140: an `END` at any other length than 0 and 26 outputs `diag(1)`, whatever the buffer holds. (That the transient values are gone afterwards is the
model's way of saying that they do not exist between operations: log 4.) -/
def Obligations.EndWrongLengthRejects : Prop :=
  ∀ s : State, s.len ≠ 0#5 → s.len ≠ 26#5 → exec .endOp s =
    .next { s with len := 0#5, crc := none, raw := absent, outs := s.outs ++ [.diag .length] }

/-- R90, R94: an `END` of a full buffer outputs what the classification gives for its 26 bytes, empties the buffer and changes
nothing else: no byte of the buffer, no configuration. (That the transient values are gone afterwards is the
model's way of saying that they do not exist between operations: log 4.) -/
def Obligations.EndClassifiesFullBuffer : Prop :=
  ∀ (s : State) (frame : List Byte), s.Holds frame → exec .endOp s =
    .next { s with len := 0#5, crc := none, raw := absent, outs := s.outs ++ [frameOutput s.sinkEn frame] }

/-- R142: the first failing stage is the one reported: a frame of wrong length reports 1 whatever its bytes, a 26-byte frame with a
wrong marker reports 2 whether or not its checksum is right, and cause 3 is reported only with both markers right. -/
def Obligations.EndReportsFirstFailure : Prop :=
  (∀ s : State, s.len ≠ 0#5 → s.len ≠ 26#5 →
    ∃ t, exec .endOp s = .next t ∧ t.len = 0#5 ∧ t.outs = s.outs ++ [.diag .length]) ∧
  ∀ (s : State) (frame : List Byte), s.Holds frame →
    (¬ (frame.getD 0 0#8 = 0x7E#8 ∧ frame.getD 25 0#8 = 0x7E#8) →
      ∃ t, exec .endOp s = .next t ∧ t.len = 0#5 ∧ t.outs = s.outs ++ [.diag .boundary]) ∧
    (frame.getD 0 0#8 = 0x7E#8 ∧ frame.getD 25 0#8 = 0x7E#8 → crc8 ((frame.drop 1).take 23) ≠ frame.getD 24 0#8 →
      ∃ t, exec .endOp s = .next t ∧ t.len = 0#5 ∧ t.outs = s.outs ++ [.diag .checksum])

/-- R90, R111, R122: an `END` of a valid frame publishes, on each attached channel and on no other, the 16-bit number
`256*byte[OFFSET] + byte[OFFSET+1]` with the channel's scale. -/
def Obligations.EndPublishesValidFrame : Prop :=
  ∀ (s : State) (frame : List Byte), s.Holds frame → frame.getD 0 0#8 = 0x7E#8 → frame.getD 25 0#8 = 0x7E#8 →
    crc8 ((frame.drop 1).take 23) = frame.getD 24 0#8 →
      ∃ t pub, exec .endOp s = .next t ∧ t.len = 0#5 ∧ t.outs = s.outs ++ [.publish pub] ∧
        ∀ ch : Channel,
          (s.sinkEn.getLsbD ch.index = false → pub.get ch = none) ∧
          (s.sinkEn.getLsbD ch.index = true → ∃ p, pub.get ch = some p ∧ p.scale = ch.scale ∧
            p.raw.toNat = 256 * (frame.getD ch.offset 0#8).toNat + (frame.getD (ch.offset + 1) 0#8).toNat)

/-- R81, R83: from every state that meets the invariant an `END` completes, with `LEN == 0` and one output record that is no transmit
record; the bytes of the buffer and the configuration are unchanged; a second `END` is silent. -/
def Obligations.EndAlwaysCompletes : Prop :=
  ∀ s : State, s.Inv →
    ∃ t o, exec .endOp s = .next t ∧ t = { s with len := 0#5, outs := s.outs ++ [o] } ∧ (∀ tx, o ≠ .transmit tx) ∧
      exec .endOp t = .next { t with outs := t.outs ++ [.silent] }

end Assembler

section Stages

/-- R91 and log 11: `LENCHK` passes at 26, changing nothing, and rejects with cause 1 at every other length. That a row executed outside
`END` raises its reject, and that it does so at `LEN == 0` and at 28 to 31, which never reach the stage, is the model's inference:
logs 11, 15. (That the transient values are gone afterwards is the
model's way of saying that they do not exist between operations: log 4.) -/
def Obligations.LenchkVerdict : Prop :=
  ∀ s : State,
    (s.len = 26#5 → exec .lenchk s = .next s) ∧
    (s.len ≠ 26#5 → exec .lenchk s =
      .next { s with len := 0#5, crc := none, raw := absent, outs := s.outs ++ [.diag .length] })

/-- R92 and log 11: `BNDCHK` passes when `FB[0]` and `FB[25]` are both 0x7E, changing nothing, and rejects with cause 2 otherwise. That a
row executed outside `END` raises its reject, and that it does so at any `LEN` at which both bytes have values (R140 gives cause 2 at
`LEN == 26` only), is the model's inference: log 11. (That the transient values are gone afterwards is the
model's way of saying that they do not exist between operations: log 4.) -/
def Obligations.BndchkVerdict : Prop :=
  ∀ (s : State) (a z : Byte), s.readFb 0 = .ok a → s.readFb 25 = .ok z →
    (a = 0x7E#8 ∧ z = 0x7E#8 → exec .bndchk s = .next s) ∧
    (¬ (a = 0x7E#8 ∧ z = 0x7E#8) → exec .bndchk s =
      .next { s with len := 0#5, crc := none, raw := absent, outs := s.outs ++ [.diag .boundary] })

/-- R102 and log 11: `CRCCHK` passes when the CRC-8 of `FB[1]` to `FB[23]` is `FB[24]`, changing nothing, and rejects with cause 3
otherwise. That a row executed outside `END` raises its reject, and that it does so whatever the markers and at any `LEN` at which the 24
bytes have values (R102 runs the stage only when stages 1 and 2 passed), is the model's inference: log 11. (That the transient values are gone afterwards is the
model's way of saying that they do not exist between operations: log 4.) -/
def Obligations.CrcchkVerdict : Prop :=
  ∀ (s : State) (b : Nat → Byte), (∀ i, 1 ≤ i → i ≤ 24 → s.readFb i = .ok (b i)) →
    (crc8 ((List.range' 1 23).map b) = b 24 → exec .crcchk s = .next s) ∧
    (crc8 ((List.range' 1 23).map b) ≠ b 24 → exec .crcchk s =
      .next { s with len := 0#5, crc := none, raw := absent, outs := s.outs ++ [.diag .checksum] })

/-- R113 to R119, R110: each `FLD.*` row reads the two bytes at its offset, the lower index more significant, into its own channel's
raw value, and changes nothing else. That a row executed outside `END` reads at any `LEN` at which its bytes have values is log 11. -/
def Obligations.FieldRowReadsBigEndian : Prop :=
  ∀ (s : State) (ch : Channel) (hi lo : Byte), s.readFb ch.offset = .ok hi → s.readFb (ch.offset + 1) = .ok lo →
    ∃ r : U16, exec (fieldInstr ch) s = .next { s with raw := s.raw.set ch (some r) } ∧
      r.toNat = 256 * hi.toNat + lo.toNat

/-- R111: `FLDDEC` reads all seven fields, whether or not their sinks are attached, and changes nothing else. That it does so outside
`END` at any `LEN` at which `FB[3]` to `FB[16]` have values is log 11. -/
def Obligations.FlddecReadsSevenFields : Prop :=
  ∀ (s : State) (b : Nat → Byte), (∀ i, 3 ≤ i → i ≤ 16 → s.readFb i = .ok (b i)) →
    exec .flddec s =
      .next { s with raw := PerChannel.tabulate fun ch => some (be16 (b ch.offset) (b (ch.offset + 1))) }

/-- R111: `FLDDEC` is the seven field rows one after another. -/
def Obligations.FlddecIsSevenFieldRows : Prop :=
  ∀ s : State, exec .flddec s = runRows fieldRows s

/-- R122: `DISPATCH` emits one publish vector with the pair of every attached channel and nothing for the others, and changes nothing
else. -/
def Obligations.DispatchPublishesAttached : Prop :=
  ∀ (s : State) (r : Channel → U16), (∀ ch, s.sinkEn.getLsbD ch.index = true → s.raw.get ch = some (r ch)) →
    exec .dispatch s = .next (s.emit (.publish (PerChannel.tabulate fun ch =>
      if s.sinkEn.getLsbD ch.index then some ⟨r ch, ch.scale⟩ else none)))

/-- R100, R27 and log 12: `CRC8.UPDATE` leaves its result as the running CRC and changes nothing else. -/
def Obligations.CrcUpdateSetsRunningCrc : Prop :=
  ∀ (s : State) (c b : Byte), exec (.crc8Update c b) s = .next { s with crc := some (crc8Update c b) }

/-- U9, R21 and log 2: a row that reads a byte which holds no value stops, naming the first such index in the order it reads: at every
length too short for it, in a state whose bytes below `LEN` have values; and, whatever the state, a field row at a length that does not
reach its first byte, and `BNDCHK`, `CRCCHK` and `FLDDEC` on an empty buffer. -/
def Obligations.ValuelessReadStops : Prop :=
  (∀ (s : State) (ch : Channel), s.len.toNat ≤ ch.offset → exec (fieldInstr ch) s = .fault (.fbNoValue ch.offset)) ∧
  (∀ s : State, s.len = 0#5 → exec .bndchk s = .fault (.fbNoValue 0) ∧ exec .crcchk s = .fault (.fbNoValue 1) ∧
    exec .flddec s = .fault (.fbNoValue 3)) ∧
  (∀ s : State, s.Inv →
    (∀ ch : Channel, s.len.toNat ≤ ch.offset + 1 →
      exec (fieldInstr ch) s = .fault (.fbNoValue (max ch.offset s.len.toNat))) ∧
    (s.len.toNat ≤ 25 → exec .bndchk s = .fault (.fbNoValue (if s.len = 0#5 then 0 else 25))) ∧
    (s.len.toNat ≤ 24 → exec .crcchk s = .fault (.fbNoValue (max 1 s.len.toNat))) ∧
    (s.len.toNat ≤ 16 → exec .flddec s = .fault (.fbNoValue (max 3 s.len.toNat))))

/-- R122 and log 4: `DISPATCH` stops exactly when an attached channel's raw value has not been produced. -/
def Obligations.DispatchNeedsRawValues : Prop :=
  ∀ s : State, (∃ ch, exec .dispatch s = .fault (.rawNoValue ch)) ↔
    ∃ ch : Channel, s.sinkEn.getLsbD ch.index = true ∧ s.raw.get ch = none

/-- R90: on a non-empty buffer `END` is its five stages executed in order, ending at the first that rejects, and then the buffer is
discarded. -/
def Obligations.EndIsItsStages : Prop :=
  ∀ s : State, s.len ≠ 0#5 → exec .endOp s = closeFrame (runRows stageRows s)

/-- R5, R25: the channels' numbers, offsets and scales, in the source's order. -/
def Obligations.ChannelTable : Prop :=
  [Channel.pm1_0, .pm2_5, .pm4_0, .pm10_0, .voc, .rh, .temp].map (fun ch => (ch.index, ch.offset, ch.scale)) =
    [(0, 3, 10), (1, 5, 10), (2, 7, 10), (3, 9, 10), (4, 11, 10), (5, 13, 100), (6, 15, 200)]

end Stages

section WholeFrames

/-- R70, R82: a Response Frame presented whole to an empty buffer is decoded: 26 silent records, then the classification of its
bytes; its bytes are in the buffer, every other index reads as before, and nothing else changes but the emptied length. That the `RSP`
row is one drain, with a record for each of its 27 command words, is the model's choice: log 8. (That the transient values are gone afterwards is the
model's way of saying that they do not exist between operations: log 4.) -/
def Obligations.RspDecodesFromEmpty : Prop :=
  ∀ (s : State) (f : RspFrame), s.len = 0#5 →
    ∃ t, exec (.rsp f) s = .next t ∧
      t.outs = s.outs ++ List.replicate 26 .silent ++ [frameOutput s.sinkEn f.bytes] ∧ t.len = 0#5 ∧
      (∀ i, i < 26 → t.fb.read i = f.bytes[i]?) ∧ (∀ a, 26 ≤ a → t.fb.read a = s.fb.read a) ∧
      t = { s with fb := t.fb, len := 0#5, crc := none, raw := absent, outs := t.outs }

/-- R164: a Response Frame that follows other bytes in the same drain is rejected with cause 1; the bytes already in the buffer and
every index past the buffer read as before. That the `RSP` row is one drain is the model's choice: log 8. That the block does not find
the frame behind the other bytes is decision D15: log 20. (That the transient values are gone afterwards is the
model's way of saying that they do not exist between operations: log 4.) -/
def Obligations.RspAfterBytesRejected : Prop :=
  ∀ (s : State) (f : RspFrame), s.len ≠ 0#5 →
    ∃ t, exec (.rsp f) s = .next t ∧
      t.outs = s.outs ++ List.replicate 26 .silent ++ [.diag .length] ∧ t.len = 0#5 ∧
      (∀ a, a < s.len.toNat → t.fb.read a = s.fb.read a) ∧ (∀ a, 26 ≤ a → t.fb.read a = s.fb.read a) ∧
      (∀ i, s.len.toNat ≤ i → i < 26 → t.fb.read i = f.bytes[i - s.len.toNat]?) ∧
      t = { s with fb := t.fb, len := 0#5, crc := none, raw := absent, outs := t.outs }

/-- R70, R82 and log 8: executing a Response Frame is the same as executing its drain, 26 `PUSH` and an `END`, one command word a step.
That the `RSP` row stands for this drain is the model's choice: log 8. -/
def Obligations.RspIsItsDrain : Prop :=
  ∀ (s : State) (f : RspFrame) (rest : List Input), s.inputs = drainInputs f.bytes ++ rest →
    Host.Core.run core 27 s = exec (.rsp f) (s.setInputs rest)

/-- R163, D15 and log 20: a 26-byte sequence closed once in its middle is two rejects with cause 1, whatever its bytes. -/
def Obligations.SplitFrameIsTwoRejects : Prop :=
  ∀ (s : State) (bytes : List Byte) (k : Nat) (rest : List Input),
    bytes.length = 26 → 0 < k → k < 26 → s.len = 0#5 →
    s.inputs = drainInputs (bytes.take k) ++ drainInputs (bytes.drop k) ++ rest →
      ∃ t, Host.Core.run core 28 s = .next t ∧ t.len = 0#5 ∧ t.inputs = rest ∧
        t.outs = s.outs ++ List.replicate k .silent ++ [.diag .length] ++ List.replicate (26 - k) .silent ++ [.diag .length]

end WholeFrames

section RequestAndReset

/-- R130, R131, R51: `REQ`, the canonical word 0x300, emits the 8 bytes of `REQ_ROM` as one record, in every state, and changes nothing
else. That the padding `REQ_PAD` trails the six literals is decision D11 of the spec: log 19 (DEDUCED). -/
def Obligations.ReqTransmitsRequestFrame : Prop :=
  decode (.cmd 0x300#11) = .ok .req ∧
  ∀ s : State, exec .req s = .next { s with outs := s.outs ++
    [.transmit [0x7E#8, 0x00#8, 0x03#8, 0x01#8, 0xFB#8, 0x7E#8, s.reqPad0, s.reqPad1]] }

/-- R66, R131 and log 9: `REQF` emits the six literals and the word's own padding; with the instance's padding it is `REQ`. That the
padding trails the literals is decision D11: log 19. -/
def Obligations.ReqfTransmitsItsBytes : Prop :=
  (∀ (s : State) (p0 p1 : Byte), exec (.reqf p0 p1) s = .next { s with outs := s.outs ++
    [.transmit [0x7E#8, 0x00#8, 0x03#8, 0x01#8, 0xFB#8, 0x7E#8, p0, p1]] }) ∧
  (∀ s : State, exec (.reqf s.reqPad0 s.reqPad1) s = exec .req s)

/-- R133: a `REQ` before a `PUSH` or an `END` changes neither what that operation does nor what it outputs. -/
def Obligations.ReqDoesNotDisturbFrame : Prop :=
  ∀ (s t v : State) (i : Instr), (i = .endOp ∨ ∃ b, i = .push b) → exec .req s = .next t → exec i s = .next v →
    ∃ o, v.outs = s.outs ++ [o] ∧ exec i t = .next { v with outs := t.outs ++ [o] }

/-- R160: `RESET` sets `LEN` to 0, writes nothing else and outputs nothing; it is idempotent. (That no output record is added at all, not
even an empty one, is the model's choice: log 6.) -/
def Obligations.ResetClearsLength : Prop :=
  ∀ s : State, exec .reset s = .next { s with len := 0#5 } ∧
    exec .reset { s with len := 0#5 } = .next { s with len := 0#5 }

/-- R30: after reset `LEN == 0`, no byte of `FB` has a value, and `SINK_EN` has the instance's configured value. -/
def Obligations.ResetState : Prop :=
  State.reset.len = 0#5 ∧ State.reset.sinkEn = Config.sinkEn ∧ ∀ i, State.reset.readFb i = .error (.fbNoValue i)

end RequestAndReset

section WholeMachine

/-- R21, R22, R27, R30: the state after reset meets the invariant. -/
def Obligations.ResetMeetsInvariant : Prop := State.reset.Inv

/-- R21, R22, R27: every step keeps the invariant, from every state that meets it. -/
def Obligations.StepKeepsInvariant : Prop :=
  ∀ s t : State, s.Inv → step s = .next t → t.Inv

/-- R151: the block has no faults, and the only refusal is a reserved command word (R61), by its `op`. -/
def Obligations.StepNeverFaults : Prop :=
  ∀ s : State, s.Inv →
    (∃ t, step s = .next t) ∨
    (∃ w rest, s.inputs = .cmd w :: rest ∧ (w.toNat < 0x100 ∨ 0x400 ≤ w.toNat) ∧
      step s = .refused (.reservedCommand (w.extractLsb' 8 3)))

/-- R25, R168, R131: no step and no instruction changes `SINK_EN` or `REQ_PAD`. -/
def Obligations.ConfigurationNeverChanges : Prop :=
  (∀ (i : Instr) (s t : State), exec i s = .next t →
    t.sinkEn = s.sinkEn ∧ t.reqPad0 = s.reqPad0 ∧ t.reqPad1 = s.reqPad1) ∧
  (∀ s t : State, step s = .next t → t.sinkEn = s.sinkEn ∧ t.reqPad0 = s.reqPad0 ∧ t.reqPad1 = s.reqPad1)

/-- R8: each operation outputs exactly one record: a `PUSH` an empty one, an `END` anything but a transmit record, a `REQ` a transmit
record of 8 bytes. -/
def Obligations.OneRecordPerOperation : Prop :=
  ∀ s t : State,
    (∀ b, exec (.push b) s = .next t → t.outs = s.outs ++ [.silent]) ∧
    (exec .endOp s = .next t → ∃ o, t.outs = s.outs ++ [o] ∧ ∀ tx, o ≠ .transmit tx) ∧
    (exec .req s = .next t → ∃ tx, t.outs = s.outs ++ [.transmit tx] ∧ tx.length = 8)

/-- R8: no instruction takes back an output record. -/
def Obligations.OutputsOnlyGrow : Prop :=
  ∀ (i : Instr) (s t : State), exec i s = .next t → ∃ os, t.outs = s.outs ++ os

/-- R20, R80, R47: which instructions can change the frame buffer: only `PUSH` and a whole frame's drain; and none of them touches an
index above 25. -/
def Obligations.OnlyPushesWriteBuffer : Prop :=
  ∀ (i : Instr) (s t : State), exec i s = .next t →
    ((∀ b, i ≠ .push b) → (∀ f, i ≠ .rsp f) → t.fb = s.fb) ∧ (∀ a, 26 ≤ a → t.fb.read a = s.fb.read a)

/-- R123: what a full buffer's `END` publishes on a channel does not depend on the other channels' sinks, and what it rejects does
not depend on any sink. -/
def Obligations.SinkIndependence : Prop :=
  ∀ (s : State) (frame : List Byte) (other : BitVec 7) (ch : Channel), s.Holds frame →
    other.getLsbD ch.index = s.sinkEn.getLsbD ch.index →
      ∃ t u o p, exec .endOp s = .next t ∧ exec .endOp { s with sinkEn := other } = .next u ∧
        t.outs = s.outs ++ [o] ∧ u.outs = s.outs ++ [p] ∧
        ((∃ v w, o = .publish v ∧ p = .publish w ∧ v.get ch = w.get ch) ∨ (∃ c, o = .diag c ∧ p = .diag c))

/-- R125: for a fixed `SINK_EN` the output of an `END` is a function of the Raw Frame alone: two full buffers with the same bytes
output the same record, whatever else the two states hold. -/
def Obligations.DecodeDependsOnFrameAlone : Prop :=
  ∀ (s t : State) (frame : List Byte), s.Holds frame → t.Holds frame → s.sinkEn = t.sinkEn →
    ∃ s' t' o, exec .endOp s = .next s' ∧ exec .endOp t = .next t' ∧
      s'.outs = s.outs ++ [o] ∧ t'.outs = t.outs ++ [o]

/-- R161, R146, R21: from an empty buffer the outputs depend only on the operations to come and the configuration: two states with
`LEN == 0`, whatever their stale bytes, transient values and past outputs, answer the same presented items with the same records, for
any number of steps. -/
def Obligations.EmptyBufferLeavesNoTrace : Prop :=
  ∀ (s t : State) (n : Nat), s.len = 0#5 → t.len = 0#5 → s.inputs = t.inputs →
    s.sinkEn = t.sinkEn → s.reqPad0 = t.reqPad0 → s.reqPad1 = t.reqPad1 →
      (∃ s' t' os, Host.Core.run core n s = .next s' ∧ Host.Core.run core n t = .next t' ∧
        s'.outs = s.outs ++ os ∧ t'.outs = t.outs ++ os) ∨
      (∃ r, Host.Core.run core n s = .refused r ∧ Host.Core.run core n t = .refused r)

end WholeMachine

section Checksum

/-- R105: the eight iterations are the parallel linear form of `x = c ^ b`, which is additive and has the table's values at 0 to 15
and at the powers of two. -/
def Obligations.CrcParallelForm : Prop :=
  (∀ c b : Byte, crc8Update c b = crc8Parallel (c ^^^ b)) ∧
  (∀ x y : Byte, crc8Parallel (x ^^^ y) = crc8Parallel x ^^^ crc8Parallel y) ∧
  (List.range 16).map (fun x => crc8Parallel (BitVec.ofNat 8 x)) =
    [0x00#8, 0x31#8, 0x62#8, 0x53#8, 0xC4#8, 0xF5#8, 0xA6#8, 0x97#8,
     0xB9#8, 0x88#8, 0xDB#8, 0xEA#8, 0x7D#8, 0x4C#8, 0x1F#8, 0x2E#8] ∧
  (List.range 8).map (fun j => crc8Parallel (BitVec.twoPow 8 j)) =
    [0x31#8, 0x62#8, 0xC4#8, 0xB9#8, 0x43#8, 0x86#8, 0x3D#8, 0x7A#8]

/-- R106 (a): with either operand fixed the byte step is a bijection on bytes in the other. -/
def Obligations.CrcStepBijective : Prop :=
  (∀ c : Byte, Function.Bijective (fun b => crc8Update c b)) ∧ (∀ b : Byte, Function.Bijective (fun c => crc8Update c b))

/-- R106 (b): the byte step is additive. -/
def Obligations.CrcStepAdditive : Prop :=
  (∀ c d b : Byte, crc8Update (c ^^^ d) b = crc8Update c b ^^^ crc8Update d 0x00#8) ∧ crc8Update 0x00#8 0x00#8 = 0x00#8

/-- R106 (c): for given bytes 1 to 23 exactly one value of byte 24 passes the check. -/
def Obligations.OneChecksumPasses : Prop :=
  ∀ frame : List Byte, frame.length = 26 → ∃! c : Byte, hasChecksum (frame.set 24 c) = true

/-- R104: the streaming register, started at 0xFF and fed at each index, holds the CRC of bytes 1 to 23 once 26 bytes are in. -/
def Obligations.StreamingCrcAgrees : Prop :=
  ∀ frame : List Byte, frame.length = 26 → crc8Stream 0xFF#8 0 frame = crc8 ((frame.drop 1).take 23)

/-- R106 (d): changing any one bit in bytes 1 to 24 of a valid frame makes its `END` reject with cause 3. -/
def Obligations.SingleBitFlipRejected : Prop :=
  ∀ (s : State) (frame : List Byte) (k j : Nat), frame.length = 26 → hasMarkers frame = true → hasChecksum frame = true →
    1 ≤ k → k ≤ 24 → j < 8 → s.Holds (frame.set k (frame.getD k 0#8 ^^^ BitVec.twoPow 8 j)) →
      ∃ t, exec .endOp s = .next t ∧ t.len = 0#5 ∧ t.outs = s.outs ++ [.diag .checksum]

end Checksum

section Scaling

/-- R110: `be16(hi, lo)` is `256*hi + lo`, in the range 0 to 65535, with `hi` in bits 15 to 8 and `lo` in bits 7 to 0. -/
def Obligations.BigEndianJoin : Prop :=
  ∀ hi lo : Byte, (be16 hi lo).toNat = 256 * hi.toNat + lo.toNat ∧ (be16 hi lo).toNat ≤ 65535 ∧
    (be16 hi lo).extractLsb' 8 8 = hi ∧ (be16 hi lo).extractLsb' 0 8 = lo

/-- R120: a published pair determines its value exactly: the scale is 10, 100 or 200, and the value times the scale is the raw integer,
so two raw values of one channel never share a value. -/
def Obligations.PublishedValueIsExact : Prop :=
  ∀ (ch : Channel) (r q : U16), (ch.scale = 10 ∨ ch.scale = 100 ∨ ch.scale = 200) ∧
    (⟨r, ch.scale⟩ : Pub).value * (ch.scale : Rat) = (r.toNat : Rat) ∧
    ((⟨r, ch.scale⟩ : Pub).value = (⟨q, ch.scale⟩ : Pub).value ↔ r = q)

/-- R121, G1 and log 14: the default rendering is the nearest 24-bit significand, a tie going to an even one, with its exponent in the
bits above; zero is all zero bits. The default is the spec's proposal from general knowledge. -/
def Obligations.DefaultFloatIsNearestEven : Prop :=
  ∀ (raw : U16) (ch : Channel),
    (raw = 0#16 → binary32 raw.toNat ch.scale = 0#32) ∧
    (raw ≠ 0#16 → ∃ m k : Nat, 2 ^ 23 ≤ m ∧ m ≤ 2 ^ 24 ∧ k ≤ 149 ∧
      (2 * m * ch.scale ≤ 2 * raw.toNat * 2 ^ k + ch.scale ∧ 2 * raw.toNat * 2 ^ k ≤ 2 * m * ch.scale + ch.scale) ∧
      ((2 * m * ch.scale = 2 * raw.toNat * 2 ^ k + ch.scale ∨ 2 * raw.toNat * 2 ^ k = 2 * m * ch.scale + ch.scale) → m % 2 = 0) ∧
      (2 ^ 23 * ch.scale ≤ raw.toNat * 2 ^ k ∧ raw.toNat * 2 ^ k < 2 ^ 24 * ch.scale) ∧
      (binary32 raw.toNat ch.scale).toNat = (150 - k) * 2 ^ 23 + m - 2 ^ 23)

end Scaling
end

