-- ==== Sys2Proof/Laws/State.lean ====
section
/-! SUPPORT. What each field of the state is after each named update: one lemma per field and update, true by `rfl`. -/

namespace Sys2Proof.Machine

section Updates

variable (s : State)

@[simp] theorem State.setFb_fb (m : Memory) : (s.setFb m).fb = m := rfl
@[simp] theorem State.setFb_len (m : Memory) : (s.setFb m).len = s.len := rfl
@[simp] theorem State.setFb_sinkEn (m : Memory) : (s.setFb m).sinkEn = s.sinkEn := rfl
@[simp] theorem State.setFb_reqPad0 (m : Memory) : (s.setFb m).reqPad0 = s.reqPad0 := rfl
@[simp] theorem State.setFb_reqPad1 (m : Memory) : (s.setFb m).reqPad1 = s.reqPad1 := rfl
@[simp] theorem State.setFb_crc (m : Memory) : (s.setFb m).crc = s.crc := rfl
@[simp] theorem State.setFb_raw (m : Memory) : (s.setFb m).raw = s.raw := rfl
@[simp] theorem State.setFb_inputs (m : Memory) : (s.setFb m).inputs = s.inputs := rfl
@[simp] theorem State.setFb_outs (m : Memory) : (s.setFb m).outs = s.outs := rfl

@[simp] theorem State.setLen_fb (n : BitVec 5) : (s.setLen n).fb = s.fb := rfl
@[simp] theorem State.setLen_len (n : BitVec 5) : (s.setLen n).len = n := rfl
@[simp] theorem State.setLen_sinkEn (n : BitVec 5) : (s.setLen n).sinkEn = s.sinkEn := rfl
@[simp] theorem State.setLen_reqPad0 (n : BitVec 5) : (s.setLen n).reqPad0 = s.reqPad0 := rfl
@[simp] theorem State.setLen_reqPad1 (n : BitVec 5) : (s.setLen n).reqPad1 = s.reqPad1 := rfl
@[simp] theorem State.setLen_crc (n : BitVec 5) : (s.setLen n).crc = s.crc := rfl
@[simp] theorem State.setLen_raw (n : BitVec 5) : (s.setLen n).raw = s.raw := rfl
@[simp] theorem State.setLen_inputs (n : BitVec 5) : (s.setLen n).inputs = s.inputs := rfl
@[simp] theorem State.setLen_outs (n : BitVec 5) : (s.setLen n).outs = s.outs := rfl

@[simp] theorem State.setCrc_fb (c : Option Byte) : (s.setCrc c).fb = s.fb := rfl
@[simp] theorem State.setCrc_len (c : Option Byte) : (s.setCrc c).len = s.len := rfl
@[simp] theorem State.setCrc_sinkEn (c : Option Byte) : (s.setCrc c).sinkEn = s.sinkEn := rfl
@[simp] theorem State.setCrc_reqPad0 (c : Option Byte) : (s.setCrc c).reqPad0 = s.reqPad0 := rfl
@[simp] theorem State.setCrc_reqPad1 (c : Option Byte) : (s.setCrc c).reqPad1 = s.reqPad1 := rfl
@[simp] theorem State.setCrc_crc (c : Option Byte) : (s.setCrc c).crc = c := rfl
@[simp] theorem State.setCrc_raw (c : Option Byte) : (s.setCrc c).raw = s.raw := rfl
@[simp] theorem State.setCrc_inputs (c : Option Byte) : (s.setCrc c).inputs = s.inputs := rfl
@[simp] theorem State.setCrc_outs (c : Option Byte) : (s.setCrc c).outs = s.outs := rfl

@[simp] theorem State.setRaw_fb (r : PerChannel (Option U16)) : (s.setRaw r).fb = s.fb := rfl
@[simp] theorem State.setRaw_len (r : PerChannel (Option U16)) : (s.setRaw r).len = s.len := rfl
@[simp] theorem State.setRaw_sinkEn (r : PerChannel (Option U16)) : (s.setRaw r).sinkEn = s.sinkEn := rfl
@[simp] theorem State.setRaw_reqPad0 (r : PerChannel (Option U16)) : (s.setRaw r).reqPad0 = s.reqPad0 := rfl
@[simp] theorem State.setRaw_reqPad1 (r : PerChannel (Option U16)) : (s.setRaw r).reqPad1 = s.reqPad1 := rfl
@[simp] theorem State.setRaw_crc (r : PerChannel (Option U16)) : (s.setRaw r).crc = s.crc := rfl
@[simp] theorem State.setRaw_raw (r : PerChannel (Option U16)) : (s.setRaw r).raw = r := rfl
@[simp] theorem State.setRaw_inputs (r : PerChannel (Option U16)) : (s.setRaw r).inputs = s.inputs := rfl
@[simp] theorem State.setRaw_outs (r : PerChannel (Option U16)) : (s.setRaw r).outs = s.outs := rfl

@[simp] theorem State.setInputs_fb (is : List Input) : (s.setInputs is).fb = s.fb := rfl
@[simp] theorem State.setInputs_len (is : List Input) : (s.setInputs is).len = s.len := rfl
@[simp] theorem State.setInputs_sinkEn (is : List Input) : (s.setInputs is).sinkEn = s.sinkEn := rfl
@[simp] theorem State.setInputs_reqPad0 (is : List Input) : (s.setInputs is).reqPad0 = s.reqPad0 := rfl
@[simp] theorem State.setInputs_reqPad1 (is : List Input) : (s.setInputs is).reqPad1 = s.reqPad1 := rfl
@[simp] theorem State.setInputs_crc (is : List Input) : (s.setInputs is).crc = s.crc := rfl
@[simp] theorem State.setInputs_raw (is : List Input) : (s.setInputs is).raw = s.raw := rfl
@[simp] theorem State.setInputs_inputs (is : List Input) : (s.setInputs is).inputs = is := rfl
@[simp] theorem State.setInputs_outs (is : List Input) : (s.setInputs is).outs = s.outs := rfl

@[simp] theorem State.emit_fb (o : Output) : (s.emit o).fb = s.fb := rfl
@[simp] theorem State.emit_len (o : Output) : (s.emit o).len = s.len := rfl
@[simp] theorem State.emit_sinkEn (o : Output) : (s.emit o).sinkEn = s.sinkEn := rfl
@[simp] theorem State.emit_reqPad0 (o : Output) : (s.emit o).reqPad0 = s.reqPad0 := rfl
@[simp] theorem State.emit_reqPad1 (o : Output) : (s.emit o).reqPad1 = s.reqPad1 := rfl
@[simp] theorem State.emit_crc (o : Output) : (s.emit o).crc = s.crc := rfl
@[simp] theorem State.emit_raw (o : Output) : (s.emit o).raw = s.raw := rfl
@[simp] theorem State.emit_inputs (o : Output) : (s.emit o).inputs = s.inputs := rfl
@[simp] theorem State.emit_outs (o : Output) : (s.emit o).outs = s.outs ++ [o] := rfl

@[simp] theorem State.writeFb_fb (i : Nat) (b : Byte) : (s.writeFb i b).fb = s.fb.write i b := rfl
@[simp] theorem State.writeFb_len (i : Nat) (b : Byte) : (s.writeFb i b).len = s.len := rfl
@[simp] theorem State.writeFb_sinkEn (i : Nat) (b : Byte) : (s.writeFb i b).sinkEn = s.sinkEn := rfl
@[simp] theorem State.writeFb_reqPad0 (i : Nat) (b : Byte) : (s.writeFb i b).reqPad0 = s.reqPad0 := rfl
@[simp] theorem State.writeFb_reqPad1 (i : Nat) (b : Byte) : (s.writeFb i b).reqPad1 = s.reqPad1 := rfl
@[simp] theorem State.writeFb_crc (i : Nat) (b : Byte) : (s.writeFb i b).crc = s.crc := rfl
@[simp] theorem State.writeFb_raw (i : Nat) (b : Byte) : (s.writeFb i b).raw = s.raw := rfl
@[simp] theorem State.writeFb_inputs (i : Nat) (b : Byte) : (s.writeFb i b).inputs = s.inputs := rfl
@[simp] theorem State.writeFb_outs (i : Nat) (b : Byte) : (s.writeFb i b).outs = s.outs := rfl

@[simp] theorem State.discard_fb : (s.discard).fb = s.fb := rfl
@[simp] theorem State.discard_len : (s.discard).len = 0#5 := rfl
@[simp] theorem State.discard_sinkEn : (s.discard).sinkEn = s.sinkEn := rfl
@[simp] theorem State.discard_reqPad0 : (s.discard).reqPad0 = s.reqPad0 := rfl
@[simp] theorem State.discard_reqPad1 : (s.discard).reqPad1 = s.reqPad1 := rfl
@[simp] theorem State.discard_crc : (s.discard).crc = none := rfl
@[simp] theorem State.discard_raw : (s.discard).raw = absent := rfl
@[simp] theorem State.discard_inputs : (s.discard).inputs = s.inputs := rfl
@[simp] theorem State.discard_outs : (s.discard).outs = s.outs := rfl

@[simp] theorem State.raiseReject_fb (c : Cause) : (s.raiseReject c).fb = s.fb := rfl
@[simp] theorem State.raiseReject_len (c : Cause) : (s.raiseReject c).len = 0#5 := rfl
@[simp] theorem State.raiseReject_sinkEn (c : Cause) : (s.raiseReject c).sinkEn = s.sinkEn := rfl
@[simp] theorem State.raiseReject_reqPad0 (c : Cause) : (s.raiseReject c).reqPad0 = s.reqPad0 := rfl
@[simp] theorem State.raiseReject_reqPad1 (c : Cause) : (s.raiseReject c).reqPad1 = s.reqPad1 := rfl
@[simp] theorem State.raiseReject_crc (c : Cause) : (s.raiseReject c).crc = none := rfl
@[simp] theorem State.raiseReject_raw (c : Cause) : (s.raiseReject c).raw = absent := rfl
@[simp] theorem State.raiseReject_inputs (c : Cause) : (s.raiseReject c).inputs = s.inputs := rfl
@[simp] theorem State.raiseReject_outs (c : Cause) : (s.raiseReject c).outs = s.outs ++ [.diag c] := rfl

end Updates

end Sys2Proof.Machine
end

