-- ==== Sys2Proof/Laws/Memory.lean ====
section
/-! SUPPORT. The laws of the frame buffer's list of cells: a read after a write, and the canonical form. -/

namespace Sys2Proof.Machine

@[simp] theorem Memory.read_nil (a : Nat) : Memory.read [] a = none := rfl

theorem Memory.read_cons (x : Nat) (b : Byte) (m : Memory) (a : Nat) :
    Memory.read ((x, b) :: m) a = if a = x then some b else Memory.read m a := rfl

/-- A byte written is the byte read back. -/
@[simp] theorem Memory.read_write_same (m : Memory) (a : Nat) (v : Byte) : (Memory.write m a v).read a = some v := by
  induction m with
  | nil => simp [Memory.write, Memory.read]
  | cons c m ih =>
    obtain ⟨x, b⟩ := c
    simp only [Memory.write]
    split
    · simp [Memory.read]
    · split
      · simp [Memory.read]
      · simp [Memory.read, *]

/-- A write leaves every other index alone. -/
theorem Memory.read_write_other (m : Memory) {a c : Nat} (v : Byte) (h : c ≠ a) :
    (Memory.write m a v).read c = m.read c := by
  induction m with
  | nil => simp [Memory.write, Memory.read, h]
  | cons d m ih =>
    obtain ⟨x, b⟩ := d
    simp only [Memory.write]
    split
    · simp [Memory.read, h]
    · split
      · next hx => subst hx; simp [Memory.read, h]
      · simp [Memory.read, ih]

theorem Memory.read_write (m : Memory) (a c : Nat) (v : Byte) :
    (Memory.write m a v).read c = if c = a then some v else m.read c := by
  split
  · next h => subst h; simp
  · next h => exact Memory.read_write_other m v h

theorem Memory.wfFrom_write (m : Memory) (lo a : Nat) (v : Byte) (hm : Memory.wfFrom lo m = true) (hlo : lo ≤ a)
    (ha : a < 26) : Memory.wfFrom lo (Memory.write m a v) = true := by
  induction m generalizing lo with
  | nil => simp [Memory.write, Memory.wfFrom, hlo, ha]
  | cons d m ih =>
    obtain ⟨x, b⟩ := d
    simp only [Memory.wfFrom, Bool.and_eq_true, decide_eq_true_eq] at hm
    obtain ⟨⟨hx, hxl⟩, hm⟩ := hm
    simp only [Memory.write]
    split
    · simp only [Memory.wfFrom, Bool.and_eq_true, decide_eq_true_eq]
      exact ⟨⟨hlo, ha⟩, ⟨by omega, hxl⟩, hm⟩
    · split
      · next h => subst h; simp [Memory.wfFrom, hlo, ha, hm]
      · simp only [Memory.wfFrom, Bool.and_eq_true, decide_eq_true_eq]
        exact ⟨⟨hx, hxl⟩, ih (x + 1) hm (by omega)⟩

/-- A write inside the buffer keeps the canonical form. -/
theorem Memory.wf_write (m : Memory) (a : Nat) (v : Byte) (hm : m.wf = true) (ha : a < 26) :
    (m.write a v).wf = true :=
  Memory.wfFrom_write m 0 a v hm (Nat.zero_le a) ha

/-- Memory after reset is in canonical form. -/
theorem reset_wf : State.reset.fb.wf = true := rfl

theorem Memory.read_below (m : Memory) (lo a : Nat) (hm : Memory.wfFrom lo m = true) (ha : a < lo) : m.read a = none := by
  induction m generalizing lo with
  | nil => rfl
  | cons d m ih =>
    obtain ⟨x, b⟩ := d
    simp only [Memory.wfFrom, Bool.and_eq_true, decide_eq_true_eq] at hm
    rw [Memory.read_cons, if_neg (by omega)]
    exact ih (x + 1) hm.2 (by omega)

/-- Canonical memories that read alike are equal data. -/
theorem Memory.eq_of_read (m n : Memory) (lo : Nat) (hm : Memory.wfFrom lo m = true) (hn : Memory.wfFrom lo n = true)
    (h : ∀ a, m.read a = n.read a) : m = n := by
  induction m generalizing n lo with
  | nil =>
    cases n with
    | nil => rfl
    | cons d n => simpa [Memory.read] using h d.1
  | cons d m ih =>
    obtain ⟨x, b⟩ := d
    cases n with
    | nil => simpa [Memory.read] using h x
    | cons e n =>
      obtain ⟨y, c⟩ := e
      simp only [Memory.wfFrom, Bool.and_eq_true, decide_eq_true_eq] at hm hn
      have hxy : x = y := by
        by_contra hne
        rcases Nat.lt_or_gt_of_ne hne with hlt | hlt
        · have := h x
          rw [Memory.read_cons, if_pos rfl, Memory.read_cons, if_neg (by omega),
            Memory.read_below n (y + 1) x hn.2 (by omega)] at this
          cases this
        · have := h y
          rw [Memory.read_cons, if_neg (by omega), Memory.read_below m (x + 1) y hm.2 (by omega),
            Memory.read_cons, if_pos rfl] at this
          cases this
      subst hxy
      have hb : b = c := by simpa [Memory.read] using h x
      subst hb
      rw [ih n (x + 1) hm.2 hn.2]
      intro a
      by_cases ha : a = x
      · subst ha
        rw [Memory.read_below m (a + 1) a hm.2 (by omega), Memory.read_below n (a + 1) a hn.2 (by omega)]
      · simpa [Memory.read_cons, ha] using h a

end Sys2Proof.Machine
end

