-- ==== Sys2Proof/Laws/Ops.lean ====
section
/-! SUPPORT. One lemma per shared operation that says everything it can do. -/

namespace Sys2Proof

@[simp] theorem PerChannel.get_tabulate {α : Type} (g : Channel → α) (ch : Channel) :
    (PerChannel.tabulate g).get ch = g ch := by cases ch <;> rfl

@[simp] theorem PerChannel.get_set_same {α : Type} (v : PerChannel α) (ch : Channel) (x : α) :
    (v.set ch x).get ch = x := by cases ch <;> rfl

theorem PerChannel.get_set_other {α : Type} (v : PerChannel α) {ch c : Channel} (x : α) (h : c ≠ ch) :
    (v.set ch x).get c = v.get c := by cases ch <;> cases c <;> first | rfl | exact absurd rfl h

theorem PerChannel.ext_get {α : Type} (v w : PerChannel α) (h : ∀ ch, v.get ch = w.get ch) : v = w := by
  cases v; cases w
  simp only [PerChannel.mk.injEq]
  exact ⟨h .pm1_0, h .pm2_5, h .pm4_0, h .pm10_0, h .voc, h .rh, h .temp⟩

@[simp] theorem Machine.get_absent {α : Type} (ch : Channel) :
    (Machine.absent : PerChannel (Option α)).get ch = none := by cases ch <;> rfl

theorem Channel.offset_lt (ch : Channel) : ch.offset + 1 < 17 := by cases ch <;> decide

namespace Machine

/-! ### Reading the frame buffer -/

/-- When a byte is read: below `min(LEN, 26)`, and listed. -/
theorem readFb_eq_ok {s : State} {i : Nat} {b : Byte} :
    s.readFb i = .ok b ↔ i < min s.len.toNat 26 ∧ s.fb.read i = some b := by
  unfold State.readFb
  split
  · next h => cases hr : s.fb.read i <;> simp [h]
  · next h => simp [h]

/-- A byte that cannot be read stops with its index. -/
theorem readFb_cases (s : State) (i : Nat) : (∃ b, s.readFb i = .ok b) ∨ s.readFb i = .error (.fbNoValue i) := by
  unfold State.readFb
  split
  · cases s.fb.read i <;> simp
  · simp

theorem readFb_of_le {s : State} {i : Nat} (h : min s.len.toNat 26 ≤ i) :
    s.readFb i = .error (.fbNoValue i) := by
  unfold State.readFb
  rw [if_neg (by omega)]

/-- A read depends on `FB` and `LEN` alone. -/
theorem readFb_congr {s t : State} (hfb : t.fb = s.fb) (hlen : t.len = s.len) (i : Nat) : t.readFb i = s.readFb i := by
  simp [State.readFb, hfb, hlen]

theorem readFb16_ok {s : State} {i : Nat} {hi lo : Byte} (h : s.readFb i = .ok hi) (l : s.readFb (i + 1) = .ok lo) :
    s.readFb16 i = .ok (be16 hi lo) := by simp [State.readFb16, h, l]

theorem readFb16_congr {s t : State} (hfb : t.fb = s.fb) (hlen : t.len = s.len) (i : Nat) :
    t.readFb16 i = s.readFb16 i := by
  simp [State.readFb16, readFb_congr hfb hlen]

/-- A readable range reads as its bytes in index order. -/
theorem readFbRange_ok {s : State} (g : Nat → Byte) (n i : Nat) (h : ∀ k, k < n → s.readFb (i + k) = .ok (g (i + k))) :
    s.readFbRange i n = .ok ((List.range' i n).map g) := by
  induction n generalizing i with
  | zero => rfl
  | succ n ih =>
    have h0 := h 0 (by omega)
    simp only [Nat.add_zero] at h0
    have hs := ih (i + 1) (fun k hk => by have := h (k + 1) (by omega); rwa [show i + (k + 1) = i + 1 + k by omega] at this)
    simp [State.readFbRange, h0, hs, List.range'_succ]

/-- A range read stops at the first index that holds no value. -/
theorem readFbRange_stop {s : State} (m n i : Nat) (hm : m < n) (h : ∀ k, k < m → ∃ b, s.readFb (i + k) = .ok b)
    (e : s.readFb (i + m) = .error (.fbNoValue (i + m))) : s.readFbRange i n = .error (.fbNoValue (i + m)) := by
  induction n generalizing i m with
  | zero => omega
  | succ n ih =>
    cases m with
    | zero => simp only [State.readFbRange, Nat.add_zero] at e ⊢; rw [e]
    | succ m =>
      obtain ⟨b, hb⟩ := h 0 (by omega)
      have hs : ∀ k, i + 1 + k = i + (k + 1) := fun k => by omega
      have hn := ih m (i + 1) (by omega) (fun k hk => hs k ▸ h (k + 1) (by omega)) (hs m ▸ e)
      simp only [State.readFbRange, Nat.add_zero] at hb ⊢
      rw [hb, hn, hs]

theorem readFbRange_congr {s t : State} (hfb : t.fb = s.fb) (hlen : t.len = s.len) (n i : Nat) :
    t.readFbRange i n = s.readFbRange i n := by
  induction n generalizing i with
  | zero => rfl
  | succ n ih => simp [State.readFbRange, readFb_congr hfb hlen, ih]

/-! ### `PUSH` -/

/-- What one `PUSH` leaves (R80), in the three cases of its pseudocode. -/
theorem pushByte_cases (s : State) (b : Byte) :
    (s.len.toNat ≤ 25 ∧
      s.pushByte b = { s with fb := s.fb.write s.len.toNat b, len := s.len + 1#5, outs := s.outs ++ [.silent] }) ∨
    (s.len.toNat = 26 ∧ s.pushByte b = { s with len := 27#5, outs := s.outs ++ [.silent] }) ∨
    (26 < s.len.toNat ∧ s.pushByte b = { s with outs := s.outs ++ [.silent] }) := by
  unfold State.pushByte
  split
  · next h => exact .inl ⟨h, rfl⟩
  · next h =>
    split
    · next h' => exact .inr (.inl ⟨by simp [h'], rfl⟩)
    · next h' =>
      refine .inr (.inr ⟨?_, rfl⟩)
      have : s.len.toNat ≠ 26 := fun e => h' (BitVec.eq_of_toNat_eq (by simpa using e))
      omega

theorem pushByte_len (s : State) (b : Byte) :
    (s.pushByte b).len.toNat =
      if s.len.toNat ≤ 25 then s.len.toNat + 1 else if s.len.toNat = 26 then 27 else s.len.toNat := by
  rcases pushByte_cases s b with ⟨h, e⟩ | ⟨h, e⟩ | ⟨h, e⟩ <;> rw [e]
  · rw [if_pos h]
    simp only [BitVec.toNat_add, BitVec.toNat_ofNat]
    omega
  · simp [h]
  · rw [if_neg (by omega), if_neg (by omega)]

@[simp] theorem pushByte_sinkEn (s : State) (b : Byte) : (s.pushByte b).sinkEn = s.sinkEn := by
  rcases pushByte_cases s b with ⟨_, e⟩ | ⟨_, e⟩ | ⟨_, e⟩ <;> rw [e]

@[simp] theorem pushByte_reqPad0 (s : State) (b : Byte) : (s.pushByte b).reqPad0 = s.reqPad0 := by
  rcases pushByte_cases s b with ⟨_, e⟩ | ⟨_, e⟩ | ⟨_, e⟩ <;> rw [e]

@[simp] theorem pushByte_reqPad1 (s : State) (b : Byte) : (s.pushByte b).reqPad1 = s.reqPad1 := by
  rcases pushByte_cases s b with ⟨_, e⟩ | ⟨_, e⟩ | ⟨_, e⟩ <;> rw [e]

@[simp] theorem pushByte_crc (s : State) (b : Byte) : (s.pushByte b).crc = s.crc := by
  rcases pushByte_cases s b with ⟨_, e⟩ | ⟨_, e⟩ | ⟨_, e⟩ <;> rw [e]

@[simp] theorem pushByte_raw (s : State) (b : Byte) : (s.pushByte b).raw = s.raw := by
  rcases pushByte_cases s b with ⟨_, e⟩ | ⟨_, e⟩ | ⟨_, e⟩ <;> rw [e]

@[simp] theorem pushByte_inputs (s : State) (b : Byte) : (s.pushByte b).inputs = s.inputs := by
  rcases pushByte_cases s b with ⟨_, e⟩ | ⟨_, e⟩ | ⟨_, e⟩ <;> rw [e]

@[simp] theorem pushByte_outs (s : State) (b : Byte) : (s.pushByte b).outs = s.outs ++ [.silent] := by
  rcases pushByte_cases s b with ⟨_, e⟩ | ⟨_, e⟩ | ⟨_, e⟩ <;> rw [e]

/-- The frame buffer after one `PUSH`: only `FB[LEN]` can differ, and only when `LEN <= 25`. -/
theorem pushByte_read (s : State) (b : Byte) (a : Nat) :
    (s.pushByte b).fb.read a = if s.len.toNat ≤ 25 ∧ a = s.len.toNat then some b else s.fb.read a := by
  rcases pushByte_cases s b with ⟨h, e⟩ | ⟨h, e⟩ | ⟨h, e⟩ <;> rw [e]
  · simp [Memory.read_write, h]
  · rw [if_neg (by omega)]
  · rw [if_neg (by omega)]

theorem pushByte_wf (s : State) (b : Byte) (h : s.fb.wf = true) : (s.pushByte b).fb.wf = true := by
  rcases pushByte_cases s b with ⟨h', e⟩ | ⟨_, e⟩ | ⟨_, e⟩ <;> rw [e]
  · exact Memory.wf_write _ _ _ h (by omega)
  · exact h
  · exact h

@[simp] theorem pushBytes_nil (s : State) : s.pushBytes [] = s := rfl

@[simp] theorem pushBytes_cons (s : State) (b : Byte) (bs : List Byte) :
    s.pushBytes (b :: bs) = (s.pushByte b).pushBytes bs := rfl

/-- A drain's pushes change the buffer, the length and the outputs only. -/
theorem pushBytes_eq (s : State) (bs : List Byte) :
    s.pushBytes bs = { s with fb := (s.pushBytes bs).fb, len := (s.pushBytes bs).len,
                              outs := s.outs ++ List.replicate bs.length .silent } := by
  induction bs generalizing s with
  | nil => simp
  | cons b bs ih =>
    rw [pushBytes_cons, ih (s.pushByte b)]
    simp [List.replicate_succ]

/-- A `PUSH` does not look at what is presented next. -/
theorem pushByte_setInputs (s : State) (b : Byte) (is : List Input) :
    (s.setInputs is).pushByte b = (s.pushByte b).setInputs is := by
  rcases pushByte_cases s b with ⟨h, e⟩ | ⟨h, e⟩ | ⟨h, e⟩ <;>
    rcases pushByte_cases (s.setInputs is) b with ⟨h', e'⟩ | ⟨h', e'⟩ | ⟨h', e'⟩ <;>
    simp only [State.setInputs_len] at h' <;> first | (rw [e, e']; rfl) | omega

theorem pushBytes_setInputs (s : State) (bs : List Byte) (is : List Input) :
    (s.setInputs is).pushBytes bs = (s.pushBytes bs).setInputs is := by
  induction bs generalizing s with
  | nil => rfl
  | cons b bs ih => rw [pushBytes_cons, pushByte_setInputs, ih, pushBytes_cons]

/-! ### Stages -/

@[simp] theorem andThen_pass (s : State) (next : State → StageEnd) : (StageEnd.pass s).andThen next = next s := rfl

@[simp] theorem andThen_reject (c : Cause) (s : State) (next : State → StageEnd) :
    (StageEnd.reject c s).andThen next = .reject c s := rfl

@[simp] theorem andThen_stop (f : Fault) (next : State → StageEnd) : (StageEnd.stop f).andThen next = .stop f := rfl

@[simp] theorem outcome_pass (s : State) : (StageEnd.pass s).outcome = .next s := rfl

@[simp] theorem outcome_reject (c : Cause) (s : State) : (StageEnd.reject c s).outcome = .next (s.raiseReject c) := rfl

@[simp] theorem outcome_stop (f : Fault) : (StageEnd.stop f).outcome = .fault f := rfl

/-- The length check passes or rejects, and changes nothing. -/
theorem lenchkStage_eq (s : State) : lenchkStage s = if s.len = 26#5 then .pass s else .reject .length s := by
  simp only [lenchkStage, State.lengthOk, beq_iff_eq]

/-- The boundary check on readable markers. -/
theorem bndchkStage_eq {s : State} {a z : Byte} (h0 : s.readFb 0 = .ok a) (h25 : s.readFb 25 = .ok z) :
    bndchkStage s = if a = 0x7E#8 ∧ z = 0x7E#8 then .pass s else .reject .boundary s := by
  simp [bndchkStage, State.boundaryOk, idxStart, idxEnd, marker, h0, h25]

/-- The checksum check on readable bytes 1 to 24. -/
theorem crcchkStage_eq {s : State} (g : Nat → Byte) (h : ∀ i, 1 ≤ i → i ≤ 24 → s.readFb i = .ok (g i)) :
    crcchkStage s = if crc8 ((List.range' 1 23).map g) = g 24 then .pass s else .reject .checksum s := by
  have hr : s.readFbRange 1 23 = .ok ((List.range' 1 23).map g) :=
    readFbRange_ok g 23 1 (fun k hk => h (1 + k) (by omega) (by omega))
  simp only [crcchkStage, State.checksumOk, crcFirst, crcCount, idxCrc, hr, h 24 (by omega) (by omega), beq_iff_eq]

/-- What a stage can do besides ending: a passed stage has changed the transient raw values or the outputs only. -/
theorem fieldStage_eq (ch : Channel) (s : State) {r : U16} (h : s.readFb16 ch.offset = .ok r) :
    fieldStage ch s = .pass (s.setRaw (s.raw.set ch (some r))) := by simp [fieldStage, h]

/-- A field read never rejects: it passes, or stops on a byte that has no value. -/
theorem fieldStage_cases (ch : Channel) (s : State) :
    (∃ r, s.readFb16 ch.offset = .ok r ∧ fieldStage ch s = .pass (s.setRaw (s.raw.set ch (some r)))) ∨
    (∃ e, s.readFb16 ch.offset = .error e ∧ fieldStage ch s = .stop e) := by
  cases h : s.readFb16 ch.offset with
  | ok r => exact .inl ⟨r, rfl, fieldStage_eq ch s h⟩
  | error e => exact .inr ⟨e, rfl, by simp [fieldStage, h]⟩

/-- The seven field reads on readable bytes 3 to 16 replace every raw value. -/
theorem flddecStage_eq {s : State} (g : Channel → U16) (h : ∀ ch, s.readFb16 (Channel.offset ch) = .ok (g ch)) :
    flddecStage s = .pass (s.setRaw (PerChannel.tabulate fun ch => some (g ch))) := by
  have step : ∀ (ch : Channel) (r : PerChannel (Option U16)),
      fieldStage ch (s.setRaw r) = .pass (s.setRaw (r.set ch (some (g ch)))) := fun ch r => by
    rw [fieldStage_eq ch (s.setRaw r) (r := g ch) ((readFb16_congr (s := s) rfl rfl ch.offset).trans (h ch))]
    rfl
  have first := fieldStage_eq .pm1_0 s (h .pm1_0)
  simp only [flddecStage, first, andThen_pass, step]
  rfl

/-- The publish vector on the raw values of the attached channels. -/
theorem dispatchStage_eq {s : State} (g : Channel → U16) (h : ∀ ch, s.attached ch = true → s.raw.get ch = some (g ch)) :
    dispatchStage s = .pass (s.emit (.publish (PerChannel.tabulate fun ch =>
      if s.sinkEn.getLsbD ch.index then some ⟨g ch, ch.scale⟩ else none))) := by
  have hm : s.missingRaw = none := by
    unfold State.missingRaw
    rw [List.find?_eq_none]
    intro ch _
    by_cases ha : s.attached ch = true
    · simp [h ch ha]
    · simp [ha]
  have hp : s.publishVector = PerChannel.tabulate fun ch =>
      if s.sinkEn.getLsbD ch.index then some ⟨g ch, ch.scale⟩ else none := by
    apply PerChannel.ext_get
    intro ch
    simp only [State.publishVector, PerChannel.get_tabulate, State.attached]
    by_cases ha : s.sinkEn.getLsbD ch.index = true
    · simp [ha, h ch ha]
    · simp [ha]
  simp [dispatchStage, hm, hp]

end Machine

end Sys2Proof
end

