-- ==== Sys2Proof/Laws/End.lean ====
section
/-! SUPPORT. What the stages of `END` and `END` itself can do, said once each. -/

namespace Sys2Proof.Machine

/-- Under the invariant every byte below `min(LEN, 26)` is readable. -/
theorem State.Inv.readFb {s : State} (h : s.Inv) {i : Nat} (hi : i < min s.len.toNat 26) : ∃ b, s.readFb i = .ok b := by
  obtain ⟨b, hb⟩ := Option.isSome_iff_exists.mp (h.written i hi)
  exact ⟨b, readFb_eq_ok.mpr ⟨hi, hb⟩⟩

/-- `LENCHK`'s stage passes or rejects on the state as it stands. -/
theorem lenchkStage_cases (s : State) : lenchkStage s = .pass s ∨ lenchkStage s = .reject .length s := by
  rw [lenchkStage_eq]
  split <;> simp

/-- `BNDCHK`'s stage passes or rejects on the state as it stands, or stops on a byte that has no value. -/
theorem bndchkStage_cases (s : State) :
    bndchkStage s = .pass s ∨ bndchkStage s = .reject .boundary s ∨ ∃ f, bndchkStage s = .stop f := by
  unfold bndchkStage
  split
  · simp
  · split <;> simp

/-- `CRCCHK`'s stage passes or rejects on the state as it stands, or stops on a byte that has no value. -/
theorem crcchkStage_cases (s : State) :
    crcchkStage s = .pass s ∨ crcchkStage s = .reject .checksum s ∨ ∃ f, crcchkStage s = .stop f := by
  unfold crcchkStage
  split
  · simp
  · split <;> simp

/-- A stage that has replaced raw values at most, or stopped. -/
def OnlyRaw (s : State) (r : StageEnd) : Prop := (∃ v, r = .pass (s.setRaw v)) ∨ ∃ f, r = .stop f

theorem OnlyRaw.field (ch : Channel) (s : State) : OnlyRaw s (fieldStage ch s) := by
  rcases fieldStage_cases ch s with ⟨r, _, e⟩ | ⟨f, _, e⟩
  · exact .inl ⟨_, e⟩
  · exact .inr ⟨_, e⟩

theorem OnlyRaw.andThen {s : State} {r : StageEnd} (h : OnlyRaw s r) (ch : Channel) :
    OnlyRaw s (r.andThen (fieldStage ch)) := by
  rcases h with ⟨v, e⟩ | ⟨f, e⟩
  · rcases OnlyRaw.field ch (s.setRaw v) with ⟨w, e'⟩ | ⟨f, e'⟩
    · exact .inl ⟨w, by rw [e, andThen_pass, e']; rfl⟩
    · exact .inr ⟨f, by rw [e, andThen_pass, e']⟩
  · exact .inr ⟨f, by rw [e, andThen_stop]⟩

/-- `FLDDEC`'s stage replaces raw values and nothing else, or stops on a byte that has no value. -/
theorem flddecStage_cases (s : State) : OnlyRaw s (flddecStage s) :=
  ((((((OnlyRaw.field .pm1_0 s).andThen .pm2_5).andThen .pm4_0).andThen .pm10_0).andThen .voc).andThen .rh).andThen .temp

/-- `DISPATCH`'s stage emits one publish vector, or stops on a raw value that has not been produced. -/
theorem dispatchStage_cases (s : State) :
    dispatchStage s = .pass (s.emit (.publish s.publishVector)) ∨ ∃ ch, dispatchStage s = .stop (.rawNoValue ch) := by
  unfold dispatchStage
  split
  · exact .inr ⟨_, rfl⟩
  · exact .inl rfl

/-- `decode()` publishes one vector, or rejects the state as it stands, or stops on a byte that has no value. -/
theorem decodePipeline_cases (s : State) :
    (∃ v p, decodePipeline s = .pass ((s.setRaw v).emit (.publish p))) ∨
    (∃ c, decodePipeline s = .reject c s) ∨ ∃ f, decodePipeline s = .stop f := by
  unfold decodePipeline
  rcases lenchkStage_cases s with e | e <;> rw [e]
  · rw [andThen_pass]
    rcases bndchkStage_cases s with e | e | ⟨f, e⟩ <;> rw [e]
    · rw [andThen_pass]
      rcases crcchkStage_cases s with e | e | ⟨f, e⟩ <;> rw [e]
      · rw [andThen_pass]
        rcases flddecStage_cases s with ⟨v, e⟩ | ⟨f, e⟩ <;> rw [e]
        · rw [andThen_pass]
          rcases dispatchStage_cases (s.setRaw v) with e | ⟨ch, e⟩ <;> rw [e]
          · exact .inl ⟨v, _, rfl⟩
          · exact .inr (.inr ⟨_, rfl⟩)
        · exact .inr (.inr ⟨f, rfl⟩)
      · exact .inr (.inl ⟨_, rfl⟩)
      · exact .inr (.inr ⟨f, rfl⟩)
    · exact .inr (.inl ⟨_, rfl⟩)
    · exact .inr (.inr ⟨f, rfl⟩)
  · exact .inr (.inl ⟨_, rfl⟩)

/-- Every way `END` can end: one record that is no transmit record, `LEN == 0`, the transient values gone and nothing else changed;
or a stop on a byte that has no value. -/
theorem endOperation_cases (s : State) :
    (∃ o, (∀ tx, o ≠ .transmit tx) ∧ endOperation s =
      .next { s with len := 0#5, crc := none, raw := absent, outs := s.outs ++ [o] }) ∨
    ∃ f, endOperation s = .fault f := by
  unfold endOperation
  split
  · exact .inl ⟨.silent, nofun, rfl⟩
  · rcases decodePipeline_cases s with ⟨v, p, e⟩ | ⟨c, e⟩ | ⟨f, e⟩ <;> rw [e]
    · exact .inl ⟨.publish p, nofun, rfl⟩
    · exact .inl ⟨.diag c, nofun, rfl⟩
    · exact .inr ⟨f, rfl⟩

/-- A Response Frame has 26 bytes. -/
theorem bytes_length (f : RspFrame) : f.bytes.length = 26 := by simp [RspFrame.bytes, frameBytes]

/-- A whole frame is its bytes pushed and an `END`. Generalize `f.bytes` before going on: unfolding it runs 26 pushes. -/
theorem exec_rsp (f : RspFrame) (s : State) : exec (.rsp f) s = endOperation (s.pushBytes f.bytes) := by
  simp only [exec, execRsp]

/-- The bytes 1 to 23 of a 26-byte sequence by index. -/
theorem covered_bytes (frame : List Byte) (h : frame.length = 26) :
    (List.range' 1 23).map (fun i => frame.getD i 0#8) = (frame.drop 1).take 23 := by
  apply List.ext_getElem?
  intro i
  by_cases hi : i < 23
  · simp only [List.getD_eq_getElem?_getD, List.getElem?_map, List.getElem?_take, List.getElem?_drop, if_pos hi,
      List.getElem?_range' hi, Option.map_some]
    rw [List.getElem?_eq_getElem (by omega)]
    simp
  · simp [hi]

/-- `decode()` on a full buffer, by the three verdicts on its bytes. -/
theorem decodePipeline_full {s : State} {frame : List Byte} (h : s.Holds frame) :
    decodePipeline s =
      if hasMarkers frame = false then .reject .boundary s
      else if hasChecksum frame = false then .reject .checksum s
      else .pass ((s.setRaw (PerChannel.tabulate fun ch => some (rawField frame ch))).emit
        (.publish (publishOf s.sinkEn frame))) := by
  have h1 : lenchkStage s = .pass s := by rw [lenchkStage_eq, if_pos h.full]
  have h2 := bndchkStage_eq (h.byte 0 (by omega)) (h.byte 25 (by omega))
  have h3 := crcchkStage_eq (s := s) (fun i => frame.getD i 0#8) (fun i _ hi => h.byte i (by omega))
  rw [covered_bytes frame h.length] at h3
  have lt := fun ch : Channel => ch.offset_lt
  have h4 := flddecStage_eq (s := s) (rawField frame) (fun ch =>
    readFb16_ok (h.byte _ (by have := lt ch; omega)) (h.byte _ (by have := lt ch; omega)))
  have h5 := dispatchStage_eq (s := s.setRaw (PerChannel.tabulate fun ch => some (rawField frame ch)))
    (rawField frame) (fun ch _ => by simp)
  unfold decodePipeline hasMarkers hasChecksum
  rw [h1, andThen_pass, h2]
  by_cases hm : frame.getD 0 0#8 = 0x7E#8 ∧ frame.getD 25 0#8 = 0x7E#8
  · rw [if_pos hm, andThen_pass, h3]
    by_cases hc : crc8 ((frame.drop 1).take 23) = frame.getD 24 0#8
    · rw [if_pos hc, andThen_pass, h4, andThen_pass, h5, if_neg (by simpa using hm), if_neg (by simpa using hc)]
      rfl
    · rw [if_neg hc, andThen_reject, andThen_reject, if_neg (by simpa using hm), if_pos (by simpa using hc)]
  · rw [if_neg hm, if_pos (by simpa using hm)]
    rfl

end Sys2Proof.Machine
end

