-- ==== Sys2Proof/Laws/PerInstr.lean ====
section
/-! SUPPORT. Laws stated once per instruction. -/

namespace Sys2Proof.Laws.EncodeFormat

/-- An instruction is presented in its row's own format, and it is one that cannot be presented exactly when its row is a `STAGE` or
the `FUNC` (R71). -/
def Statement (i : Instr) : Prop :=
  (∀ inp, encode i = some inp → inp.format = i.format) ∧ (encode i = none ↔ i.format = .stage ∨ i.format = .func)

theorem of_some {i : Instr} {inp : Input} (h : encode i = some inp) (hf : inp.format = i.format)
    (hs : i.format ≠ .stage ∧ i.format ≠ .func) : Statement i := by
  refine ⟨fun x hx => ?_, ?_⟩
  · rw [h] at hx
    cases hx
    exact hf
  · simp [h, hs.1, hs.2]

theorem of_none {i : Instr} (h : encode i = none) (hf : i.format = .stage ∨ i.format = .func) : Statement i := by
  refine ⟨fun x hx => ?_, ?_⟩
  · rw [h] at hx
    cases hx
  · simp [h, hf]

theorem push (b : Byte) : Statement (.push b) := of_some rfl rfl ⟨nofun, nofun⟩
theorem endOp : Statement .endOp := of_some rfl rfl ⟨nofun, nofun⟩
theorem req : Statement .req := of_some rfl rfl ⟨nofun, nofun⟩
theorem reset : Statement .reset := of_some rfl rfl ⟨nofun, nofun⟩
theorem rsp (f : RspFrame) : Statement (.rsp f) := of_some rfl rfl ⟨nofun, nofun⟩
theorem reqf (pad0 pad1 : Byte) : Statement (.reqf pad0 pad1) := of_some rfl rfl ⟨nofun, nofun⟩
theorem lenchk : Statement .lenchk := of_none rfl (.inl rfl)
theorem bndchk : Statement .bndchk := of_none rfl (.inl rfl)
theorem crcchk : Statement .crcchk := of_none rfl (.inl rfl)
theorem flddec : Statement .flddec := of_none rfl (.inl rfl)
theorem fldPm1_0 : Statement .fldPm1_0 := of_none rfl (.inl rfl)
theorem fldPm2_5 : Statement .fldPm2_5 := of_none rfl (.inl rfl)
theorem fldPm4_0 : Statement .fldPm4_0 := of_none rfl (.inl rfl)
theorem fldPm10_0 : Statement .fldPm10_0 := of_none rfl (.inl rfl)
theorem fldVoc : Statement .fldVoc := of_none rfl (.inl rfl)
theorem fldRh : Statement .fldRh := of_none rfl (.inl rfl)
theorem fldTemp : Statement .fldTemp := of_none rfl (.inl rfl)
theorem dispatch : Statement .dispatch := of_none rfl (.inl rfl)
theorem crc8Update (c b : Byte) : Statement (.crc8Update c b) := of_none rfl (.inr rfl)

end Sys2Proof.Laws.EncodeFormat
end

