-- ==== Sys2Proof/Laws/Run.lean ====
section
/-! SUPPORT. One step and several steps: what `step` does with the next presented item, and how a run goes on. -/

namespace Sys2Proof.Machine

/-- A step with nothing presented. -/
theorem step_idle {s : State} (h : s.inputs = []) : step s = .next s := by simp [step, State.fetch, h]

/-- A step with an item presented. -/
theorem step_cons {s : State} {inp : Input} {rest : List Input} (h : s.inputs = inp :: rest) :
    step s = match decode inp with
      | .ok i => exec i (s.setInputs rest)
      | .error e => .refused (refusalOf e) := by
  cases hd : decode inp <;> simp [step, State.fetch, h, hd]

/-- Every way a step can end, by what is presented. -/
theorem step_cases (s : State) :
    (s.inputs = [] ∧ step s = .next s) ∨
    (∃ inp rest i, s.inputs = inp :: rest ∧ decode inp = .ok i ∧ step s = exec i (s.setInputs rest)) ∨
    (∃ inp rest e, s.inputs = inp :: rest ∧ decode inp = .error e ∧ step s = .refused (refusalOf e)) := by
  cases h : s.inputs with
  | nil => exact .inl ⟨rfl, step_idle h⟩
  | cons inp rest =>
    cases hd : decode inp with
    | ok i => exact .inr (.inl ⟨inp, rest, i, rfl, hd, by rw [step_cons h, hd]⟩)
    | error e => exact .inr (.inr ⟨inp, rest, e, rfl, hd, by rw [step_cons h, hd]⟩)

@[simp] theorem run_zero (s : State) : Host.Core.run core 0 s = .next s := rfl

theorem core_run_next (M : Host.Core) {s t : M.State} (n : Nat) (h : M.step s = .next t) :
    M.run (n + 1) s = M.run n t := by simp only [Host.Core.run, h]

theorem core_run_fault (M : Host.Core) {s : M.State} {f : M.Fault} (n : Nat) (h : M.step s = .fault f) :
    M.run (n + 1) s = .fault f := by simp only [Host.Core.run, h]

theorem core_run_refused (M : Host.Core) {s : M.State} {r : M.Refusal} (n : Nat) (h : M.step s = .refused r) :
    M.run (n + 1) s = .refused r := by simp only [Host.Core.run, h]

theorem run_next {s t : State} (n : Nat) (h : step s = .next t) :
    Host.Core.run core (n + 1) s = Host.Core.run core n t := core_run_next core n h

theorem run_fault {s : State} {f : Fault} (n : Nat) (h : step s = .fault f) :
    Host.Core.run core (n + 1) s = .fault f := core_run_fault core n h

theorem run_refused {s : State} {r : Refusal} (n : Nat) (h : step s = .refused r) :
    Host.Core.run core (n + 1) s = .refused r := core_run_refused core n h

end Sys2Proof.Machine
end

