-- ==== Sys2Proof/Tests/Slice0.lean ====
section
/-! SUPPORT. Tests by hand from the spec's vectors (95_test_vectors.md) and encodings, and a witness for the hypotheses of every statement
that has some. -/

namespace Sys2Proof.Tests

open Sys2Proof.Machine

/-- A state that holds the bytes pushed since the buffer was empty, all sinks attached, padding 00 00. -/
def holding (bytes : List Byte) : State where
  fb := ((bytes.take 26).zipIdx).map fun p => (p.2, p.1)
  len := BitVec.ofNat 5 (min bytes.length 27)
  sinkEn := 0x7F#7
  reqPad0 := 0x00#8
  reqPad1 := 0x00#8
  crc := none
  raw := absent
  inputs := []
  outs := []

/-- The output records a result has, if it is a next state. -/
def outsOf : Result → Option (List Output)
  | .next t => some t.outs
  | _ => none

/-- The length a result has, if it is a next state. -/
def lenOf : Result → Option (BitVec 5)
  | .next t => some t.len
  | _ => none

/-- The frame buffer a result has, if it is a next state. -/
def fbOf : Result → Option Memory
  | .next t => some t.fb
  | _ => none

/-- The raw values a result has, if it is a next state. -/
def rawOf : Result → Option (PerChannel (Option U16))
  | .next t => some t.raw
  | _ => none

/-- The fault a result ends in, if any. -/
def faultOf : Result → Option Fault
  | .fault f => some f
  | _ => none

/-- The refusal a result ends in, if any. -/
def refusalIn : Result → Option Refusal
  | .refused r => some r
  | _ => none

/-- Vector S1 (Part 1), the source's own scenario. -/
def s1 : List Byte :=
  [0x7E#8, 0x00#8, 0x1E#8, 0x00#8, 0x7B#8, 0x00#8, 0x2D#8, 0x00#8, 0x43#8, 0x00#8, 0x59#8, 0x00#8, 0x0A#8,
   0x11#8, 0x94#8, 0x11#8, 0x94#8, 0x00#8, 0x00#8, 0x00#8, 0x00#8, 0x00#8, 0x00#8, 0x00#8, 0x98#8, 0x7E#8]

/-- S1's fields (R62). -/
def s1Frame : RspFrame :=
  ⟨0x7E#8, 0x00#8, 0x1E#8, 123#16, 45#16, 67#16, 89#16, 10#16, 4500#16, 4500#16, 0#56, 0x98#8, 0x7E#8⟩

/-- S1's publish vector with all sinks attached. -/
def s1Published : PerChannel (Option Pub) :=
  ⟨some ⟨123#16, 10⟩, some ⟨45#16, 10⟩, some ⟨67#16, 10⟩, some ⟨89#16, 10⟩, some ⟨10#16, 10⟩, some ⟨4500#16, 100⟩,
   some ⟨4500#16, 200⟩⟩

/-! ### Well-formedness: one ill-formed term for each check -/

theorem test_wf_frame : (Instr.rsp s1Frame).wf = true := by decide
theorem test_wf_wrong_start : (Instr.rsp { s1Frame with start := 0x7F#8 }).wf = false := by decide
theorem test_wf_wrong_stop : (Instr.rsp { s1Frame with stop := 0x7C#8 }).wf = false := by decide

/-! ### Decoding: words written out bit by bit from R60, R63, R66 -/

/-- op 001, data 0111_1110 ("Command words": `PUSH 0x7E` = 0x17E). -/
theorem test_decode_push : decode (.cmd 0b001_01111110#11) = .ok (.push 0x7E#8) := by rfl
/-- op 010, data ignored. -/
theorem test_decode_end : decode (.cmd 0b010_10100101#11) = .ok .endOp := by rfl
/-- op 011, data ignored. -/
theorem test_decode_req : decode (.cmd 0b011_11111111#11) = .ok .req := by rfl
theorem test_decode_reserved_0 : decode (.cmd 0b000_11111111#11) = .error (.reservedOp 0#3) := by rfl
theorem test_decode_reserved_4 : decode (.cmd 0b100_00000000#11) = .error (.reservedOp 4#3) := by rfl
theorem test_decode_reset : decodeTableWord 8 1 = some .reset := by decide
theorem test_decode_reset_low : decodeTableWord 8 0 = none := by decide
/-- S1 as `F[207:0]`, byte 0 most significant. -/
theorem test_decode_rsp :
    decode (.rsp 0x7E001E007B002D00430059000A1194119400000000000000987E#208) = .ok (.rsp s1Frame) := by rfl
theorem test_decode_reqf : decodeTableWord 64 0x7E000301FB7EAB01 = some (.reqf 0xAB#8 0x01#8) := by decide
/-- 0x57 in the checksum's place is no Request Frame (C3: 0xFB is a literal). -/
theorem test_decode_reqf_wrong : decodeTableWord 64 0x7E000301577E0000 = none := by decide
theorem test_encode_push : encode (.push 0xFF#8) = some (.cmd 0x1FF#11) := by decide
theorem test_encode_rsp :
    encode (.rsp s1Frame) = some (.rsp 0x7E001E007B002D00430059000A1194119400000000000000987E#208) := by decide
theorem test_rsp_bytes : s1Frame.bytes = s1 := by decide
theorem test_crc8Update_word : crc8UpdateWord 0xFF#8 0xBE#8 = 0xFFBE#16 := by decide

/-! ### The CRC unit (vectors of R100, R101) -/

theorem test_crc_step_be : crc8Update 0xFF#8 0xBE#8 = 0x0C#8 := by decide
theorem test_crc_step_ac : crc8Update 0xAC#8 0x1E#8 = 0xDD#8 := by decide
theorem test_crc_check_value :
    crc8 [0x31#8, 0x32#8, 0x33#8, 0x34#8, 0x35#8, 0x36#8, 0x37#8, 0x38#8, 0x39#8] = 0xF7#8 := by decide +kernel
theorem test_crc_request : crc8 [0x00#8, 0x03#8, 0x01#8] = 0x57#8 := by decide +kernel
theorem test_crc_ff : crc8 (List.replicate 23 0xFF#8) = 0x4E#8 := by decide +kernel

/-! ### One step of each row -/

/-- A2: the 26th byte is stored in `FB[25]`. -/
theorem test_push_26th : lenOf (exec (.push 0x7E#8) (holding (s1.take 25))) = some 26#5 ∧
    fbOf (exec (.push 0x7E#8) (holding (s1.take 25))) = some (holding s1).fb := by decide
/-- A3, A4: the 27th byte is dropped, and the counter saturates. -/
theorem test_push_27th : lenOf (exec (.push 0x00#8) (holding s1)) = some 27#5 ∧
    fbOf (exec (.push 0x00#8) (holding s1)) = some (holding s1).fb ∧
    lenOf (exec (.push 0x55#8) (holding (s1 ++ [0x00#8]))) = some 27#5 := by decide
/-- A8: the S1 publish vector. -/
theorem test_end_s1 : outsOf (exec .endOp (holding s1)) = some [.publish s1Published] := by decide +kernel
/-- B3: both a marker and the checksum are wrong, and the marker is reported. -/
theorem test_end_first_failure :
    outsOf (exec .endOp (holding (((s1.set 0 0x00#8).set 25 0x00#8).set 24 0x67#8))) = some [.diag .boundary] := by decide +kernel
/-- Q2: a request in the middle of a frame. -/
theorem test_req : outsOf (exec .req (holding (s1.take 13))) =
    some [.transmit [0x7E#8, 0x00#8, 0x03#8, 0x01#8, 0xFB#8, 0x7E#8, 0x00#8, 0x00#8]] ∧
    lenOf (exec .req (holding (s1.take 13))) = some 13#5 := by decide
/-- X1. -/
theorem test_reset : lenOf (exec .reset (holding (s1.take 20))) = some 0#5 ∧
    outsOf (exec .reset (holding (s1.take 20))) = some [] := by decide
/-- `DECODE` of S1 ends in its publish vector. -/
theorem test_rsp : outsOf (exec (.rsp s1Frame) (holding [])) =
    some (List.replicate 26 .silent ++ [.publish s1Published]) := by decide +kernel
/-- PRG4: a second frame in the same drain. -/
theorem test_rsp_coalesced : outsOf (exec (.rsp s1Frame) (holding s1)) =
    some (List.replicate 26 .silent ++ [.diag .length]) := by decide +kernel
/-- Q3 with padding `AB 01`. -/
theorem test_reqf : outsOf (exec (.reqf 0xAB#8 0x01#8) (holding [])) =
    some [.transmit [0x7E#8, 0x00#8, 0x03#8, 0x01#8, 0xFB#8, 0x7E#8, 0xAB#8, 0x01#8]] := by decide
/-- L2: 25 bytes. -/
theorem test_lenchk : outsOf (exec .lenchk (holding (s1.take 25))) = some [.diag .length] ∧
    outsOf (exec .lenchk (holding s1)) = some [] := by decide
/-- B2: byte 25 = 7C. -/
theorem test_bndchk : outsOf (exec .bndchk (holding (s1.set 25 0x7C#8))) = some [.diag .boundary] ∧
    outsOf (exec .bndchk (holding s1)) = some [] := by decide
/-- C4: byte 17 = 55, which computes 57 against 98; C5 with 57 in byte 24 passes. -/
theorem test_crcchk : outsOf (exec .crcchk (holding (s1.set 17 0x55#8))) = some [.diag .checksum] ∧
    outsOf (exec .crcchk (holding ((s1.set 17 0x55#8).set 24 0x57#8))) = some [] := by decide +kernel
theorem test_flddec : rawOf (exec .flddec (holding s1)) =
    some ⟨some 123#16, some 45#16, some 67#16, some 89#16, some 10#16, some 4500#16, some 4500#16⟩ := by decide

/-- F2's bytes: values a little-endian reading would swap, and values with bit 15 set. -/
def f2 : List Byte :=
  [0x7E#8, 0x00#8, 0x00#8, 0x01#8, 0x00#8, 0x00#8, 0x01#8, 0x80#8, 0x00#8, 0x7F#8, 0xFF#8, 0x12#8, 0x34#8,
   0xAB#8, 0xCD#8, 0xFF#8, 0xFE#8, 0x00#8, 0x00#8, 0x00#8, 0x00#8, 0x00#8, 0x00#8, 0x00#8, 0x22#8, 0x7E#8]

theorem test_fldPm1_0 : rawOf (exec .fldPm1_0 (holding f2)) = some { absent with pm1_0 := some 256#16 } := by decide
theorem test_fldPm2_5 : rawOf (exec .fldPm2_5 (holding f2)) = some { absent with pm2_5 := some 1#16 } := by decide
theorem test_fldPm4_0 : rawOf (exec .fldPm4_0 (holding f2)) = some { absent with pm4_0 := some 32768#16 } := by decide
theorem test_fldPm10_0 : rawOf (exec .fldPm10_0 (holding f2)) = some { absent with pm10_0 := some 32767#16 } := by decide
theorem test_fldVoc : rawOf (exec .fldVoc (holding f2)) = some { absent with voc := some 4660#16 } := by decide
theorem test_fldRh : rawOf (exec .fldRh (holding f2)) = some { absent with rh := some 43981#16 } := by decide
theorem test_fldTemp : rawOf (exec .fldTemp (holding f2)) = some { absent with temp := some 65534#16 } := by decide
/-- F2's publish vector: its checksum 22 passes and the temperature is unsigned. -/
theorem test_end_f2 : outsOf (exec .endOp (holding f2)) =
    some [.publish ⟨some ⟨256#16, 10⟩, some ⟨1#16, 10⟩, some ⟨32768#16, 10⟩, some ⟨32767#16, 10⟩, some ⟨4660#16, 10⟩,
      some ⟨43981#16, 100⟩, some ⟨65534#16, 200⟩⟩] := by decide +kernel

/-- S1's raw values as the field reads leave them. -/
def s1Raw : PerChannel (Option U16) :=
  ⟨some 123#16, some 45#16, some 67#16, some 89#16, some 10#16, some 4500#16, some 4500#16⟩

/-- D3: `SINK_EN` = 0100001 publishes channels 0 and 5 only. -/
theorem test_dispatch : outsOf (exec .dispatch { holding s1 with sinkEn := 0b0100001#7, raw := s1Raw }) =
    some [.publish ⟨some ⟨123#16, 10⟩, none, none, none, none, some ⟨4500#16, 100⟩, none⟩] := by decide
/-- D2: no sink attached is an empty vector and no diagnostic. -/
theorem test_dispatch_no_sink : outsOf (exec .dispatch { holding s1 with sinkEn := 0#7, raw := s1Raw }) =
    some [.publish absent] := by decide
theorem test_crc8Update : exec (.crc8Update 0x0C#8 0xEF#8) (holding []) = .next { holding [] with crc := some 0x92#8 } := by rfl

/-! ### Steps and the default rendering -/

/-- A reserved word is refused by its `op`. -/
theorem test_step_reserved : refusalIn (step ((holding []).withFetchWord 11 0x0FF)) = some (.reservedCommand 0#3) := by decide
/-- The first instruction after reset is the word presented. -/
theorem test_step_push : lenOf (step (State.reset.withFetchWord 16 0x17E)) = some 1#5 := by decide
/-- R121's and F2's examples of the default `to_float`. -/
theorem test_binary32 : binary32 123 10 = 0x4144CCCD#32 ∧ binary32 1 200 = 0x3BA3D70A#32 ∧
    binary32 65535 200 = 0x43A3D666#32 ∧ binary32 32767 10 = 0x454CCB33#32 ∧ binary32 4500 200 = 0x41B40000#32 := by decide

/-! ### Witnesses: the hypotheses of each statement that has some, met together by concrete values -/

/-- A state with items presented. -/
def presenting (s : State) (is : List Input) : State := s.setInputs is

theorem s1_held : (holding s1).Holds s1 := ⟨by decide, by decide, by decide⟩
theorem s1_bad_held : (holding (s1.set 24 0x99#8)).Holds (s1.set 24 0x99#8) := ⟨by decide, by decide, by decide⟩
theorem s1_unmarked_held : (holding (s1.set 0 0x7F#8)).Holds (s1.set 0 0x7F#8) := ⟨by decide, by decide, by decide⟩
theorem holding_inv : (holding s1).Inv := ⟨by decide, by decide, by decide, by decide, by decide⟩
theorem holding_27_inv : (holding (s1 ++ s1)).Inv := ⟨by decide, by decide, by decide, by decide, by decide⟩

theorem test_witness_StepRunsPresentedInstruction : (presenting (holding []) [.cmd 0x17E#11]).inputs = .cmd 0x17E#11 :: [] ∧
    decode (.cmd 0x17E#11) = .ok (.push 0x7E#8) := ⟨rfl, rfl⟩
theorem test_witness_StepIdleWithoutInput : (holding s1).inputs = [] := rfl
theorem test_witness_ReservedCommandRefused_low : (presenting (holding []) [.cmd 0x0FF#11]).inputs = .cmd 0x0FF#11 :: [] ∧
    (0x0FF#11).toNat < 0x100 := ⟨rfl, by decide⟩
theorem test_witness_ReservedCommandRefused_high : (presenting (holding []) [.cmd 0x400#11]).inputs = .cmd 0x400#11 :: [] ∧
    0x400 ≤ (0x400#11).toNat := ⟨rfl, by decide⟩
theorem test_witness_CommandWordsByMatchAndMask : 0x1FF#11 &&& 0x700#11 = 0x100#11 ∧ 0x200#11 &&& 0x700#11 = 0x200#11 ∧
    0x3FF#11 &&& 0x700#11 = 0x300#11 ∧
    (0x400#11 &&& 0x700#11 ≠ 0x100#11 ∧ 0x400#11 &&& 0x700#11 ≠ 0x200#11 ∧ 0x400#11 &&& 0x700#11 ≠ 0x300#11) := by decide
theorem test_witness_DecodeOfEncode : encode (.reqf 0x12#8 0x34#8) = some (.reqf 0x1234#16) := by decide
theorem test_witness_EncodeOfDecode : decode (.cmd 0x2FF#11) = .ok .endOp ∧
    decodeTableWord 64 0x7E000301FB7E1234 = some (.reqf 0x12#8 0x34#8) := by decide
theorem test_witness_FrameFieldsAreItsBytes : 6 < 7 := by decide
theorem test_witness_PushAppendsByte : (holding (s1.take 25)).len.toNat ≤ 25 ∧ (holding s1).len.toNat = 26 ∧
    27 ≤ (holding (s1 ++ s1)).len.toNat := by decide
theorem test_witness_PushFrame : ∃ t, exec (.push 0x7E#8) (holding (s1.take 25)) = .next t := ⟨_, rfl⟩
theorem test_witness_PushedBytesFillBuffer : (holding []).len = 0#5 ∧
    (presenting (holding []) [.cmd (pushWord 0x7E#8), .cmd 0x200#11]).inputs =
      [0x7E#8].map (fun b => Input.cmd (pushWord b)) ++ [.cmd 0x200#11] := ⟨by decide, rfl⟩
theorem test_witness_DrainOutputsClassification : (presenting (holding []) (drainInputs s1 ++ [])).len = 0#5 ∧
    (presenting (holding []) (drainInputs s1 ++ [])).inputs = drainInputs s1 ++ [] := ⟨by decide, rfl⟩
theorem test_witness_EndOfEmptyBufferIsSilent : (holding []).len = 0#5 := by decide
theorem test_witness_EndWrongLengthRejects : ((holding (s1.take 25)).len ≠ 0#5 ∧ (holding (s1.take 25)).len ≠ 26#5) ∧
    ((holding (s1 ++ s1)).len ≠ 0#5 ∧ (holding (s1 ++ s1)).len ≠ 26#5) := by decide
theorem test_witness_EndClassifiesFullBuffer : (holding s1).Holds s1 := s1_held
theorem test_witness_EndReportsFirstFailure_length : (holding [0x7E#8]).len ≠ 0#5 ∧ (holding [0x7E#8]).len ≠ 26#5 := by decide
theorem test_witness_EndReportsFirstFailure_boundary : (holding (s1.set 0 0x7F#8)).Holds (s1.set 0 0x7F#8) ∧
    ¬ ((s1.set 0 0x7F#8).getD 0 0#8 = 0x7E#8 ∧ (s1.set 0 0x7F#8).getD 25 0#8 = 0x7E#8) := ⟨s1_unmarked_held, by decide⟩
theorem test_witness_EndReportsFirstFailure_checksum : (holding (s1.set 24 0x99#8)).Holds (s1.set 24 0x99#8) ∧
    ((s1.set 24 0x99#8).getD 0 0#8 = 0x7E#8 ∧ (s1.set 24 0x99#8).getD 25 0#8 = 0x7E#8) ∧
    crc8 (((s1.set 24 0x99#8).drop 1).take 23) ≠ (s1.set 24 0x99#8).getD 24 0#8 := ⟨s1_bad_held, by decide, by decide +kernel⟩
theorem test_witness_EndPublishesValidFrame : (holding s1).Holds s1 ∧ s1.getD 0 0#8 = 0x7E#8 ∧ s1.getD 25 0#8 = 0x7E#8 ∧
    crc8 ((s1.drop 1).take 23) = s1.getD 24 0#8 := ⟨s1_held, by decide, by decide, by decide +kernel⟩
theorem test_witness_EndAlwaysCompletes : (holding s1).Inv ∧ (holding (s1 ++ s1)).Inv := ⟨holding_inv, holding_27_inv⟩
theorem test_witness_LenchkVerdict : (holding s1).len = 26#5 ∧ (holding (s1 ++ s1)).len ≠ 26#5 := by decide
theorem test_witness_LenchkVerdict_empty : (holding []).len ≠ 26#5 := by decide
theorem test_witness_BndchkVerdict : (holding s1).readFb 0 = .ok 0x7E#8 ∧ (holding s1).readFb 25 = .ok 0x7E#8 ∧
    (holding (s1.set 25 0x7C#8)).readFb 0 = .ok 0x7E#8 ∧ (holding (s1.set 25 0x7C#8)).readFb 25 = .ok 0x7C#8 := by decide
theorem test_witness_CrcchkVerdict_pass : (∀ i, 1 ≤ i → i ≤ 24 → (holding s1).readFb i = .ok (s1.getD i 0#8)) ∧
    crc8 ((List.range' 1 23).map fun i => s1.getD i 0#8) = s1.getD 24 0#8 :=
  ⟨fun i _ h => s1_held.byte i (by omega), by decide +kernel⟩
theorem test_witness_CrcchkVerdict_fail :
    (∀ i, 1 ≤ i → i ≤ 24 → (holding (s1.set 24 0x99#8)).readFb i = .ok ((s1.set 24 0x99#8).getD i 0#8)) ∧
    crc8 ((List.range' 1 23).map fun i => (s1.set 24 0x99#8).getD i 0#8) ≠ (s1.set 24 0x99#8).getD 24 0#8 :=
  ⟨fun i _ h => s1_bad_held.byte i (by omega), by decide +kernel⟩
theorem test_witness_FieldRowReadsBigEndian : (holding s1).readFb Channel.temp.offset = .ok 0x11#8 ∧
    (holding s1).readFb (Channel.temp.offset + 1) = .ok 0x94#8 := by decide
theorem test_witness_FlddecReadsSevenFields : ∀ i, 3 ≤ i → i ≤ 16 → (holding s1).readFb i = .ok (s1.getD i 0#8) :=
  fun i _ h => s1_held.byte i (by omega)
theorem test_witness_DispatchPublishesAttached : ∀ ch : Channel, ({ holding s1 with raw := s1Raw } : State).sinkEn.getLsbD ch.index = true →
    ({ holding s1 with raw := s1Raw } : State).raw.get ch = some (rawField s1 ch) := by
  intro ch _; cases ch <;> decide
theorem test_witness_ValuelessReadStops : (holding (s1.take 15)).len.toNat ≤ Channel.temp.offset ∧ (holding []).len = 0#5 := by decide
theorem test_witness_ValuelessReadStops_field : (holding (s1.take 16)).Inv ∧
    (holding (s1.take 16)).len.toNat ≤ Channel.temp.offset + 1 ∧ (holding (s1.take 16)).len.toNat ≤ 16 :=
  ⟨⟨by decide, by decide, by decide, by decide, by decide⟩, by decide, by decide⟩
theorem test_witness_ValuelessReadStops_checks : (holding (s1.take 24)).Inv ∧ (holding (s1.take 24)).len.toNat ≤ 24 ∧
    (holding (s1.take 25)).Inv ∧ (holding (s1.take 25)).len.toNat ≤ 25 :=
  ⟨⟨by decide, by decide, by decide, by decide, by decide⟩, by decide,
    ⟨by decide, by decide, by decide, by decide, by decide⟩, by decide⟩
/-- U9: each row at the last length at which it still reads a byte that holds no value. -/
theorem test_valueless_last : faultOf (exec .fldTemp (holding (s1.take 16))) = some (.fbNoValue 16) ∧
    faultOf (exec .bndchk (holding (s1.take 25))) = some (.fbNoValue 25) ∧
    faultOf (exec .crcchk (holding (s1.take 24))) = some (.fbNoValue 24) ∧
    faultOf (exec .flddec (holding (s1.take 16))) = some (.fbNoValue 16) := by decide
theorem test_witness_DispatchNeedsRawValues : (holding s1).sinkEn.getLsbD Channel.rh.index = true ∧
    (holding s1).raw.get .rh = none := by decide
theorem test_witness_EndIsItsStages : (holding s1).len ≠ 0#5 := by decide
theorem test_witness_RspDecodesFromEmpty : (holding []).len = 0#5 := by decide
theorem test_witness_RspAfterBytesRejected : (holding (s1.take 5)).len ≠ 0#5 := by decide
theorem test_witness_RspIsItsDrain : (presenting (holding []) (drainInputs s1Frame.bytes ++ [.rst])).inputs =
    drainInputs s1Frame.bytes ++ [.rst] := rfl
theorem test_witness_SplitFrameIsTwoRejects : s1.length = 26 ∧ 0 < 10 ∧ 10 < 26 ∧ (holding []).len = 0#5 ∧
    (presenting (holding []) (drainInputs (s1.take 10) ++ drainInputs (s1.drop 10) ++ [])).inputs =
      drainInputs (s1.take 10) ++ drainInputs (s1.drop 10) ++ [] := ⟨by decide, by decide, by decide, by decide, rfl⟩
theorem test_witness_ReqDoesNotDisturbFrame : (∃ t, exec .req (holding []) = .next t) ∧ (∃ v, exec .endOp (holding []) = .next v) ∧
    ∃ v, exec (.push 0x00#8) (holding []) = .next v := ⟨⟨_, rfl⟩, ⟨_, rfl⟩, ⟨_, rfl⟩⟩
theorem test_witness_StepKeepsInvariant : (presenting (holding s1) [.rst]).Inv ∧ ∃ t, step (presenting (holding s1) [.rst]) = .next t :=
  ⟨⟨by decide, by decide, by decide, by decide, by decide⟩, ⟨_, rfl⟩⟩
theorem test_witness_StepNeverFaults : (holding s1).Inv ∧ (presenting (holding s1) [.cmd 0x000#11]).Inv :=
  ⟨holding_inv, ⟨by decide, by decide, by decide, by decide, by decide⟩⟩
theorem test_witness_ConfigurationNeverChanges : (∃ t, exec .req (holding s1) = .next t) ∧
    ∃ t, step (presenting (holding s1) [.rst]) = .next t := ⟨⟨_, rfl⟩, ⟨_, rfl⟩⟩
theorem test_witness_OneRecordPerOperation : (∃ t, exec (.push 0x00#8) (holding []) = .next t) ∧
    (∃ t, exec .endOp (holding []) = .next t) ∧ ∃ t, exec .req (holding []) = .next t := ⟨⟨_, rfl⟩, ⟨_, rfl⟩, ⟨_, rfl⟩⟩
theorem test_witness_OutputsOnlyGrow : ∃ t, exec .reset (holding s1) = .next t := ⟨_, rfl⟩
theorem test_witness_OnlyPushesWriteBuffer : (∃ t, exec .reset (holding s1) = .next t) ∧ 26 ≤ 26 := ⟨⟨_, rfl⟩, by decide⟩
theorem test_witness_SinkIndependence : (holding s1).Holds s1 ∧
    (0b0100001#7).getLsbD Channel.rh.index = (holding s1).sinkEn.getLsbD Channel.rh.index := ⟨s1_held, by decide⟩
theorem test_witness_DecodeDependsOnFrameAlone : (holding s1).Holds s1 ∧
    ({ holding s1 with outs := [.silent], reqPad0 := 0x55#8 } : State).Holds s1 ∧
    (holding s1).sinkEn = ({ holding s1 with outs := [.silent], reqPad0 := 0x55#8 } : State).sinkEn :=
  ⟨s1_held, ⟨by decide, by decide, by decide⟩, rfl⟩
theorem test_witness_EmptyBufferLeavesNoTrace : ({ holding s1 with len := 0#5 } : State).len = 0#5 ∧ (holding []).len = 0#5 ∧
    ({ holding s1 with len := 0#5 } : State).inputs = (holding []).inputs ∧
    ({ holding s1 with len := 0#5 } : State).sinkEn = (holding []).sinkEn ∧
    ({ holding s1 with len := 0#5 } : State).reqPad0 = (holding []).reqPad0 ∧
    ({ holding s1 with len := 0#5 } : State).reqPad1 = (holding []).reqPad1 := ⟨rfl, rfl, rfl, rfl, rfl, rfl⟩
theorem test_witness_OneChecksumPasses : s1.length = 26 := by decide
theorem test_witness_StreamingCrcAgrees : f2.length = 26 := by decide
theorem test_witness_SingleBitFlipRejected : s1.length = 26 ∧ hasMarkers s1 = true ∧ hasChecksum s1 = true ∧
    (1 ≤ 24 ∧ 24 ≤ 24 ∧ 0 < 8) ∧ (holding (s1.set 24 0x99#8)).Holds (s1.set 24 (s1.getD 24 0#8 ^^^ BitVec.twoPow 8 0)) :=
  ⟨by decide, by decide, by decide +kernel, by decide, s1_bad_held⟩
theorem test_witness_SingleBitFlipRejected_first : (1 ≤ 1 ∧ 1 ≤ 24 ∧ 7 < 8) ∧
    (holding (s1.set 1 0x80#8)).Holds (s1.set 1 (s1.getD 1 0#8 ^^^ BitVec.twoPow 8 7)) :=
  ⟨by decide, ⟨by decide, by decide, by decide⟩⟩
theorem test_witness_DefaultFloatIsNearestEven : (0#16).toNat = 0 ∧ 65535#16 ≠ 0#16 := by decide

end Sys2Proof.Tests
end

section
/-! PROOFS. The statements of 00_scope.md: one operation at a time (R7), one output record for each of the three operations and none
taken back (R8), the channel table (R5). Each rests on what an instruction leaves unchanged, said once below. -/

namespace Sys2Proof.Machine

/-! ### What an instruction leaves unchanged -/

/-- What every row but `PUSH` and `RSP` does at most: `LEN` and the transient values change and records are appended to the
observation; the frame buffer, the configuration and the presented items stay. -/
structure State.KeepsBuffer (s t : State) : Prop where
  eq_but : t = { s with len := t.len, crc := t.crc, raw := t.raw, outs := t.outs }
  outs_prefix : s.outs <+: t.outs

/-- A check that passes or rejects the state as it stands, or stops. -/
theorem StageEnd.keepsBuffer_of_check {s t : State} {r : StageEnd} {c : Cause}
    (hr : r = .pass s ∨ r = .reject c s ∨ ∃ f, r = .stop f) (h : r.outcome = .next t) : s.KeepsBuffer t := by
  obtain rfl | rfl | ⟨f, rfl⟩ := hr
  · cases h
    exact ⟨rfl, List.prefix_rfl⟩
  · cases h
    exact ⟨rfl, List.prefix_append _ _⟩
  · cases h

theorem OnlyRaw.keepsBuffer {s t : State} {r : StageEnd} (hr : OnlyRaw s r) (h : r.outcome = .next t) :
    s.KeepsBuffer t := by
  obtain ⟨v, rfl⟩ | ⟨f, rfl⟩ := hr
  · cases h
    exact ⟨rfl, List.prefix_rfl⟩
  · cases h

theorem dispatchStage_keepsBuffer {s t : State} (h : (dispatchStage s).outcome = .next t) : s.KeepsBuffer t := by
  rcases dispatchStage_cases s with e | ⟨ch, e⟩ <;> rw [e] at h <;> cases h
  exact ⟨rfl, List.prefix_append _ _⟩

/-- The state an `END` that completes ends in: one more record, no transmit record, and the frame discarded (R8, R81). -/
theorem endOperation_next {s t : State} (h : endOperation s = .next t) :
    ∃ o, (∀ tx, o ≠ .transmit tx) ∧ t = { s with len := 0#5, crc := none, raw := absent, outs := s.outs ++ [o] } := by
  rcases endOperation_cases s with ⟨o, ho, e⟩ | ⟨f, e⟩ <;> rw [e] at h <;> cases h
  exact ⟨o, ho, rfl⟩

/-- Only `PUSH` and a whole frame's drain do more than `State.KeepsBuffer` allows. -/
theorem exec_keepsBuffer {i : Instr} {s t : State} (hpush : ∀ b, i ≠ .push b) (hrsp : ∀ f, i ≠ .rsp f)
    (h : exec i s = .next t) : s.KeepsBuffer t := by
  cases i with
  | push b => exact absurd rfl (hpush b)
  | rsp f => exact absurd rfl (hrsp f)
  | endOp =>
    obtain ⟨o, _, rfl⟩ := endOperation_next h
    exact ⟨rfl, List.prefix_append _ _⟩
  | req | reqf =>
    cases h
    exact ⟨rfl, List.prefix_append _ _⟩
  | reset | crc8Update =>
    cases h
    exact ⟨rfl, List.prefix_rfl⟩
  | lenchk => exact StageEnd.keepsBuffer_of_check ((lenchkStage_cases s).imp_right .inl) h
  | bndchk => exact StageEnd.keepsBuffer_of_check (bndchkStage_cases s) h
  | crcchk => exact StageEnd.keepsBuffer_of_check (crcchkStage_cases s) h
  | fldPm1_0 | fldPm2_5 | fldPm4_0 | fldPm10_0 | fldVoc | fldRh | fldTemp =>
    exact (OnlyRaw.field _ s).keepsBuffer h
  | flddec => exact (flddecStage_cases s).keepsBuffer h
  | dispatch => exact dispatchStage_keepsBuffer h

/-! ### The records of each operation -/

theorem pushBytes_outs (s : State) (bs : List Byte) :
    (s.pushBytes bs).outs = s.outs ++ List.replicate bs.length .silent :=
  congrArg State.outs (pushBytes_eq s bs)

theorem exec_push_outs {b : Byte} {s t : State} (h : exec (.push b) s = .next t) : t.outs = s.outs ++ [.silent] := by
  cases h
  exact pushByte_outs s b

theorem exec_endOp_outs {s t : State} (h : exec .endOp s = .next t) :
    ∃ o, t.outs = s.outs ++ [o] ∧ ∀ tx, o ≠ .transmit tx := by
  obtain ⟨o, ho, rfl⟩ := endOperation_next h
  exact ⟨o, rfl, ho⟩

theorem requestBytes_length (pad0 pad1 : Byte) : (requestBytes pad0 pad1).length = 8 := rfl

theorem exec_req_outs {s t : State} (h : exec .req s = .next t) :
    t.outs = s.outs ++ [.transmit (requestBytes s.reqPad0 s.reqPad1)] := by
  cases h
  rfl

/-- A whole frame outputs a silent record for each of its 26 bytes and then what its `END` outputs (R70). -/
theorem exec_rsp_outs {f : RspFrame} {s t : State} (h : exec (.rsp f) s = .next t) :
    ∃ o, t.outs = s.outs ++ List.replicate 26 .silent ++ [o] := by
  rw [exec_rsp] at h
  obtain ⟨o, _, rfl⟩ := endOperation_next h
  exact ⟨o, by rw [pushBytes_outs, bytes_length]⟩

/-! ### The statements -/

/-- Settles O46: each operation's output lemma, side by side. -/
theorem oneRecordPerOperation : Obligations.OneRecordPerOperation := fun s _ =>
  ⟨fun _ => exec_push_outs, exec_endOp_outs, fun h => ⟨_, exec_req_outs h, requestBytes_length s.reqPad0 s.reqPad1⟩⟩

/-- Settles O47: `PUSH` and `RSP` by their own records, every other row by what it leaves unchanged. -/
theorem outputsOnlyGrow : Obligations.OutputsOnlyGrow := by
  intro i s t h
  by_cases hpush : ∃ b, i = .push b
  · obtain ⟨b, rfl⟩ := hpush
    exact ⟨_, exec_push_outs h⟩
  by_cases hrsp : ∃ f, i = .rsp f
  · obtain ⟨f, rfl⟩ := hrsp
    obtain ⟨o, ho⟩ := exec_rsp_outs h
    exact ⟨_, ho.trans (List.append_assoc _ _ _)⟩
  · obtain ⟨os, hos⟩ := (exec_keepsBuffer (not_exists.mp hpush) (not_exists.mp hrsp) h).outs_prefix
    exact ⟨os, hos.symm⟩

/-- Settles O1: the step on a presented item, with the item's decoding put in. -/
theorem stepRunsPresentedInstruction : Obligations.StepRunsPresentedInstruction := by
  intro s inp rest i hinputs hdecode
  rw [step_cons hinputs, hdecode]

/-- Settles O32: the table has no variable, so both lists compute. -/
theorem channelTable : Obligations.ChannelTable := rfl

end Sys2Proof.Machine
end

section
/-! PROOFS. The statements of 10_state.md: the invariant and the state after reset (R21, R22, R27, R30), the bytes of a drain in the
buffer (R23), a read of a byte that has no value (R21), the configuration (R25) and who writes the buffer (R20). -/

namespace Sys2Proof.Machine

/-! ### The invariant -/

/-- An empty buffer in canonical form without transient values meets the invariant, whatever bytes it still holds (R21). -/
theorem State.Inv.of_empty {s : State} (hwf : s.fb.wf = true) (hlen : s.len = 0#5) (hcrc : s.crc = none)
    (hraw : s.raw = absent) : s.Inv where
  wf := hwf
  len_le := by simp [hlen]
  written := by simp [hlen]
  noCrc := hcrc
  noRaw := hraw

/-- The presented items and the observation play no part in the invariant. -/
theorem State.Inv.setInputs {s : State} (h : s.Inv) (is : List Input) : (s.setInputs is).Inv :=
  ⟨h.wf, h.len_le, h.written, h.noCrc, h.noRaw⟩

theorem State.Inv.emit {s : State} (h : s.Inv) (o : Output) : (s.emit o).Inv :=
  ⟨h.wf, h.len_le, h.written, h.noCrc, h.noRaw⟩

/-- A `PUSH` keeps the invariant: the index that becomes readable, if any, is the one it has just written (R80). -/
theorem State.Inv.pushByte {s : State} (h : s.Inv) (b : Byte) : (s.pushByte b).Inv where
  wf := pushByte_wf s b h.wf
  len_le := by
    have hle := h.len_le
    rw [pushByte_len]
    split_ifs <;> omega
  written := by
    intro i hi
    rw [pushByte_read]
    split_ifs with hnew
    · rfl
    · rw [pushByte_len] at hi
      exact h.written i (by split_ifs at hi <;> omega)
  noCrc := (pushByte_crc s b).trans h.noCrc
  noRaw := (pushByte_raw s b).trans h.noRaw

theorem State.Inv.pushBytes {s : State} (h : s.Inv) (bs : List Byte) : (s.pushBytes bs).Inv := by
  induction bs generalizing s with
  | nil => exact h
  | cons b bs ih => exact ih (h.pushByte b)

/-- An `END` that completes leaves the invariant: it empties the buffer and drops the transient values (R81, R27). -/
theorem State.Inv.endOperation {s t : State} (h : s.Inv) (ht : endOperation s = .next t) : t.Inv := by
  obtain ⟨o, -, rfl⟩ := endOperation_next ht
  exact .of_empty h.wf rfl rfl rfl

/-- The six rows a presented item can stand for: no item decodes to a `STAGE` row or to the `FUNC` row (R71). -/
theorem decode_ok_cases {inp : Input} {i : Instr} (h : decode inp = .ok i) :
    (∃ b, i = .push b) ∨ i = .endOp ∨ i = .req ∨ i = .reset ∨ (∃ f, i = .rsp f) ∨ ∃ p0 p1, i = .reqf p0 p1 := by
  cases inp with
  | cmd w =>
    simp only [decode, decodeCmd] at h
    split_ifs at h <;> cases h <;> simp
  | rst => cases h; simp
  | rsp f => cases h; simp
  | reqf pad => cases h; simp [decodeReqf]

/-- Every row that can be presented keeps the invariant. -/
theorem exec_keeps_inv {inp : Input} {i : Instr} {s t : State} (hi : decode inp = .ok i) (hs : s.Inv)
    (h : exec i s = .next t) : t.Inv := by
  obtain ⟨b, rfl⟩ | rfl | rfl | rfl | ⟨f, rfl⟩ | ⟨p0, p1, rfl⟩ := decode_ok_cases hi
  · cases h
    exact hs.pushByte b
  · exact hs.endOperation h
  · cases h
    exact hs.emit _
  · cases h
    exact .of_empty hs.wf rfl hs.noCrc hs.noRaw
  · rw [exec_rsp] at h
    exact (hs.pushBytes f.bytes).endOperation h
  · cases h
    exact hs.emit _

/-- Settles O43: a step is idle, or executes a row that can be presented. -/
theorem stepKeepsInvariant : Obligations.StepKeepsInvariant := by
  intro s t hs h
  obtain ⟨-, e⟩ | ⟨inp, rest, i, -, hi, e⟩ | ⟨_, _, _, -, -, e⟩ := step_cases s <;> rw [e] at h
  · cases h
    exact hs
  · exact exec_keeps_inv hi (hs.setInputs rest) h
  · cases h

/-- Settles O42: the buffer is empty after reset. -/
theorem resetMeetsInvariant : Obligations.ResetMeetsInvariant := .of_empty reset_wf rfl rfl rfl

/-- Settles O41: `LEN == 0` makes every index unreadable. -/
theorem resetState : Obligations.ResetState := ⟨rfl, rfl, fun i => readFb_of_le (Nat.zero_le i)⟩

/-! ### The bytes of a drain -/

/-- `LEN` after any number of pushes, saturating at 27 (R22, R80). -/
theorem pushBytes_len {s : State} (h : s.len.toNat ≤ 27) (bs : List Byte) :
    (s.pushBytes bs).len.toNat = min (s.len.toNat + bs.length) 27 := by
  induction bs generalizing s with
  | nil => simp [h]
  | cons b bs ih =>
    have hb := pushByte_len s b
    rw [pushBytes_cons, ih (by split_ifs at hb <;> omega), hb, List.length_cons]
    split_ifs <;> omega

/-- The frame buffer after any number of pushes: the bytes stand from `LEN` on, as far as index 25, and nothing else is written. -/
theorem pushBytes_read (s : State) (bs : List Byte) (a : Nat) :
    (s.pushBytes bs).fb.read a =
      if s.len.toNat ≤ a ∧ a < min (s.len.toNat + bs.length) 26 then bs[a - s.len.toNat]? else s.fb.read a := by
  induction bs generalizing s with
  | nil =>
    rw [if_neg (by simp only [List.length_nil]; omega)]
    rfl
  | cons b bs ih =>
    rw [pushBytes_cons, ih, pushByte_read, pushByte_len, List.length_cons]
    by_cases hlen : s.len.toNat ≤ 25
    · rw [if_pos hlen]
      by_cases ha : a = s.len.toNat
      · rw [if_neg (by omega), if_pos ⟨hlen, ha⟩, if_pos (by omega), ha]
        simp
      · have hold : ¬ (s.len.toNat ≤ 25 ∧ a = s.len.toNat) := fun hc => ha hc.2
        rw [if_neg hold]
        by_cases hin : s.len.toNat + 1 ≤ a ∧ a < min (s.len.toNat + 1 + bs.length) 26
        · rw [if_pos hin, if_pos (by omega), show a - s.len.toNat = a - (s.len.toNat + 1) + 1 by omega,
            List.getElem?_cons_succ]
        · rw [if_neg hin, if_neg (by omega)]
    · rw [if_neg (by split_ifs <;> omega), if_neg (fun hc => hlen hc.1), if_neg (by omega)]

@[simp] theorem pushBytes_sinkEn (s : State) (bs : List Byte) : (s.pushBytes bs).sinkEn = s.sinkEn :=
  by rw [pushBytes_eq]

@[simp] theorem pushBytes_reqPad0 (s : State) (bs : List Byte) : (s.pushBytes bs).reqPad0 = s.reqPad0 :=
  by rw [pushBytes_eq]

@[simp] theorem pushBytes_reqPad1 (s : State) (bs : List Byte) : (s.pushBytes bs).reqPad1 = s.reqPad1 :=
  by rw [pushBytes_eq]

/-- The command word `PUSH b` is read as `PUSH b` (R80). -/
theorem decode_pushWord (b : Byte) : decode (.cmd (pushWord b)) = .ok (.push b) := by
  have hop : cmdOp (pushWord b) = 1#3 := BitVec.extractLsb'_append_eq_left
  have hdata : cmdData (pushWord b) = b := BitVec.extractLsb'_append_eq_right
  simp only [decode, decodeCmd, if_pos hop, hdata]

theorem step_pushWord {s : State} {b : Byte} {rest : List Input} (h : s.inputs = .cmd (pushWord b) :: rest) :
    step s = .next ((s.setInputs rest).pushByte b) := by
  rw [step_cons h, decode_pushWord]
  rfl

/-- A run over presented `PUSH` words appends their bytes. -/
theorem run_pushWords {s : State} (bytes : List Byte) {rest : List Input}
    (h : s.inputs = bytes.map (fun b => Input.cmd (pushWord b)) ++ rest) :
    Host.Core.run core bytes.length s = .next ((s.pushBytes bytes).setInputs rest) := by
  induction bytes generalizing s with
  | nil =>
    obtain rfl : s.inputs = rest := h
    rfl
  | cons b bytes ih =>
    rw [List.length_cons, run_next _ (step_pushWord h), ih (pushByte_inputs _ b), pushByte_setInputs, pushBytes_setInputs]
    rfl

/-- Settles O13: the run appends the bytes, and from `LEN == 0` they stand from index 0 on. -/
theorem pushedBytesFillBuffer : Obligations.PushedBytesFillBuffer := by
  intro s bytes rest hlen hinputs
  have hlen0 : s.len.toNat = 0 := by rw [hlen]; rfl
  have hfill : (s.pushBytes bytes).len.toNat = min bytes.length 27 := by
    rw [pushBytes_len (by omega), hlen0, Nat.zero_add]
  refine ⟨_, run_pushWords bytes hinputs, rfl, hfill, fun i hi => ?_, pushBytes_sinkEn s bytes, pushBytes_outs s bytes⟩
  refine readFb_eq_ok.mpr ⟨?_, ?_⟩
  · rw [State.setInputs_len, hfill]
    omega
  · rw [State.setInputs_fb, pushBytes_read, hlen0, if_pos (by omega), Nat.sub_zero,
      List.getElem?_eq_getElem (by omega), List.getD_eq_getElem _ _ (by omega)]

/-! ### What an instruction can change -/

theorem State.KeepsBuffer.fb {s t : State} (h : s.KeepsBuffer t) : t.fb = s.fb := by rw [h.eq_but]

theorem State.KeepsBuffer.config {s t : State} (h : s.KeepsBuffer t) :
    t.sinkEn = s.sinkEn ∧ t.reqPad0 = s.reqPad0 ∧ t.reqPad1 = s.reqPad1 := by
  rw [h.eq_but]
  exact ⟨rfl, rfl, rfl⟩

/-- What an instruction that completes has done: one byte pushed, or a frame's bytes pushed and then nothing more to the buffer, or
nothing to the buffer at all. -/
theorem exec_next_cases {i : Instr} {s t : State} (h : exec i s = .next t) :
    (∃ b, i = .push b ∧ t = s.pushByte b) ∨ (∃ f, i = .rsp f ∧ (s.pushBytes f.bytes).KeepsBuffer t) ∨
      s.KeepsBuffer t := by
  by_cases hpush : ∃ b, i = .push b
  · obtain ⟨b, rfl⟩ := hpush
    cases h
    exact .inl ⟨b, rfl, rfl⟩
  by_cases hrsp : ∃ f, i = .rsp f
  · obtain ⟨f, rfl⟩ := hrsp
    rw [exec_rsp] at h
    exact .inr (.inl ⟨f, rfl, exec_keepsBuffer (i := .endOp) nofun nofun h⟩)
  · exact .inr (.inr (exec_keepsBuffer (not_exists.mp hpush) (not_exists.mp hrsp) h))

/-- No instruction changes `SINK_EN` or `REQ_PAD` (R168). -/
theorem exec_config {i : Instr} {s t : State} (h : exec i s = .next t) :
    t.sinkEn = s.sinkEn ∧ t.reqPad0 = s.reqPad0 ∧ t.reqPad1 = s.reqPad1 := by
  obtain ⟨b, -, rfl⟩ | ⟨f, -, hk⟩ | hk := exec_next_cases h
  · simp
  · simpa using hk.config
  · exact hk.config

/-- Settles O45: a step is idle, or executes an instruction. -/
theorem configurationNeverChanges : Obligations.ConfigurationNeverChanges := by
  refine ⟨fun i s t => exec_config, fun s t h => ?_⟩
  obtain ⟨-, e⟩ | ⟨_, rest, i, -, -, e⟩ | ⟨_, _, _, -, -, e⟩ := step_cases s <;> rw [e] at h
  · cases h
    exact ⟨rfl, rfl, rfl⟩
  · exact exec_config (s := s.setInputs rest) h
  · cases h

/-- Settles O48: a push writes at `LEN` and only while `LEN <= 25`, and every other row keeps the buffer. -/
theorem onlyPushesWriteBuffer : Obligations.OnlyPushesWriteBuffer := by
  intro i s t h
  obtain ⟨b, rfl, rfl⟩ | ⟨f, rfl, hk⟩ | hk := exec_next_cases h
  · refine ⟨fun hpush _ => absurd rfl (hpush b), fun a ha => ?_⟩
    rw [pushByte_read, if_neg (by omega)]
  · refine ⟨fun _ hrsp => absurd rfl (hrsp f), fun a ha => ?_⟩
    rw [hk.fb, pushBytes_read, if_neg (by omega)]
  · exact ⟨fun _ _ => hk.fb, fun a _ => by rw [hk.fb]⟩

/-! ### A read of a byte that has no value -/

/-- Every byte below `min(LEN, 26)` has a value (R21). -/
def State.Readable (s : State) : Prop := ∀ i, i < min s.len.toNat 26 → ∃ b, s.readFb i = .ok b

theorem State.Inv.readable {s : State} (h : s.Inv) : s.Readable := fun _ => h.readFb

theorem State.Readable.of_empty {s : State} (h : s.len = 0#5) : s.Readable := by simp [State.Readable, h]

theorem readFb16_stop_low {s : State} {i : Nat} (h : s.len.toNat ≤ i) : s.readFb16 i = .error (.fbNoValue i) := by
  simp [State.readFb16, readFb_of_le ((min_le_left _ _).trans h)]

/-- A two-byte read that does not end below `LEN` stops at its first byte that has no value. -/
theorem State.Readable.readFb16_stop {s : State} (hs : s.Readable) {i : Nat} (hi : i < 26) (h : s.len.toNat ≤ i + 1) :
    s.readFb16 i = .error (.fbNoValue (max i s.len.toNat)) := by
  by_cases hlow : s.len.toNat ≤ i
  · rw [readFb16_stop_low hlow, Nat.max_eq_left hlow]
  · obtain ⟨b, hb⟩ := hs i (by omega)
    rw [show max i s.len.toNat = i + 1 by omega]
    simp [State.readFb16, hb, readFb_of_le ((min_le_left _ _).trans h)]

theorem State.Readable.readFb16_ok {s : State} (hs : s.Readable) {i : Nat} (hi : i + 1 < 26) (h : i + 1 < s.len.toNat) :
    ∃ r, s.readFb16 i = .ok r := by
  obtain ⟨hb, hhi⟩ := hs i (by omega)
  obtain ⟨lb, hlo⟩ := hs (i + 1) (by omega)
  exact ⟨_, Machine.readFb16_ok hhi hlo⟩

theorem fieldStage_stop {s : State} {ch : Channel} {e : Fault} (h : s.readFb16 ch.offset = .error e) :
    fieldStage ch s = .stop e := by simp [fieldStage, h]

theorem exec_fieldInstr (ch : Channel) (s : State) : exec (fieldInstr ch) s = (fieldStage ch s).outcome := by
  cases ch <;> rfl

/-- The boundary check below 26 bytes stops at the first marker that has no value. -/
theorem State.Readable.bndchkStage_stop {s : State} (hs : s.Readable) (h : s.len.toNat ≤ 25) :
    bndchkStage s = .stop (.fbNoValue (if s.len = 0#5 then 0 else 25)) := by
  have hend : s.readFb 25 = .error (.fbNoValue 25) := readFb_of_le (by omega)
  split_ifs with h0
  · have hstart : s.readFb 0 = .error (.fbNoValue 0) := readFb_of_le (by simp [h0])
    simp [bndchkStage, State.boundaryOk, idxStart, hstart]
  · have hpos : s.len.toNat ≠ 0 := fun e => h0 (BitVec.eq_of_toNat_eq e)
    obtain ⟨b, hstart⟩ := hs 0 (by omega)
    simp [bndchkStage, State.boundaryOk, idxStart, idxEnd, hstart, hend]

/-- The checksum check below 25 bytes stops at the first byte from index 1 on that has no value. -/
theorem State.Readable.crcchkStage_stop {s : State} (hs : s.Readable) (h : s.len.toNat ≤ 24) :
    crcchkStage s = .stop (.fbNoValue (max 1 s.len.toNat)) := by
  by_cases hcov : s.len.toNat < 24
  · have hr : s.readFbRange 1 23 = .error (.fbNoValue (1 + (s.len.toNat - 1))) :=
      readFbRange_stop _ 23 1 (by omega) (fun k hk => hs (1 + k) (by omega)) (readFb_of_le (by omega))
    simp only [crcchkStage, State.checksumOk, crcFirst, crcCount, hr,
      show 1 + (s.len.toNat - 1) = max 1 s.len.toNat by omega]
  · have hval : ∀ i, i < 24 → s.readFb i = .ok ((s.fb.read i).getD 0#8) := fun i hi => by
      obtain ⟨b, hb⟩ := hs i (by omega)
      rw [hb, (readFb_eq_ok.mp hb).2, Option.getD_some]
    have hr := readFbRange_ok (s := s) (fun i => (s.fb.read i).getD 0#8) 23 1 (fun k hk => hval (1 + k) (by omega))
    have h24 : s.readFb 24 = .error (.fbNoValue 24) := readFb_of_le (by omega)
    rw [show max 1 s.len.toNat = 24 by omega]
    simp only [crcchkStage, State.checksumOk, crcFirst, crcCount, idxCrc, hr, h24]

/-- How the field reads of `FB[3]` to `FB[n-1]` have ended: all of them passed, or the first of these bytes that has no value stopped
them. -/
def FieldsReadTo (s : State) (n : Nat) (r : StageEnd) : Prop :=
  (n ≤ max 3 s.len.toNat ∧ ∃ v, r = .pass (s.setRaw v)) ∨
    (max 3 s.len.toNat < n ∧ r = .stop (.fbNoValue (max 3 s.len.toNat)))

theorem FieldsReadTo.start (s : State) : FieldsReadTo s 3 (.pass s) := .inl ⟨Nat.le_max_left 3 _, s.raw, rfl⟩

/-- One more field read, at the offset the reads have reached. -/
theorem FieldsReadTo.andThen {s : State} {ch : Channel} {r : StageEnd} (h : FieldsReadTo s ch.offset r)
    (hs : s.Readable) : FieldsReadTo s (ch.offset + 2) (r.andThen (fieldStage ch)) := by
  have hch := ch.offset_lt
  obtain ⟨hlen, v, rfl⟩ | ⟨hlen, rfl⟩ := h
  · have hread : (s.setRaw v).readFb16 ch.offset = s.readFb16 ch.offset := readFb16_congr rfl rfl _
    have hch3 : 3 ≤ ch.offset := by cases ch <;> decide
    by_cases hfit : ch.offset + 2 ≤ s.len.toNat
    · obtain ⟨r, hr⟩ := hs.readFb16_ok (i := ch.offset) (by omega) (by omega)
      exact .inl ⟨by omega, _, fieldStage_eq ch _ (hread.trans hr)⟩
    · have hstop := hs.readFb16_stop (i := ch.offset) (by omega) (by omega)
      rw [show max ch.offset s.len.toNat = max 3 s.len.toNat by omega] at hstop
      exact .inr ⟨by omega, fieldStage_stop (hread.trans hstop)⟩
  · exact .inr ⟨by omega, rfl⟩

/-- The seven field reads reach index 17, each beginning where the one before it ends. -/
theorem State.Readable.flddecStage_readTo {s : State} (hs : s.Readable) : FieldsReadTo s 17 (flddecStage s) := by
  have h1 : FieldsReadTo s 5 (fieldStage .pm1_0 s) := (FieldsReadTo.start s).andThen (ch := .pm1_0) hs
  exact ((((((h1.andThen (ch := .pm2_5) hs).andThen (ch := .pm4_0) hs).andThen (ch := .pm10_0) hs).andThen
    (ch := .voc) hs).andThen (ch := .rh) hs).andThen (ch := .temp) hs)

/-- The field reads below 17 bytes stop at the first byte from index 3 on that has no value. -/
theorem State.Readable.flddecStage_stop {s : State} (hs : s.Readable) (h : s.len.toNat ≤ 16) :
    flddecStage s = .stop (.fbNoValue (max 3 s.len.toNat)) := by
  obtain ⟨hlen, -⟩ | ⟨-, e⟩ := hs.flddecStage_readTo
  · omega
  · exact e

theorem outcome_of_stop {r : StageEnd} {f : Fault} (h : r = .stop f) : r.outcome = .fault f := by
  rw [h, outcome_stop]

/-- Settles O29: where each row stops, for any state whose bytes below `LEN` have values, the empty buffer among them. -/
theorem valuelessReadStops : Obligations.ValuelessReadStops := by
  refine ⟨fun s ch h => ?_, fun s h => ?_, fun s hs => ⟨fun ch h => ?_, fun h => ?_, fun h => ?_, fun h => ?_⟩⟩
  · rw [exec_fieldInstr]
    exact outcome_of_stop (fieldStage_stop (readFb16_stop_low h))
  · have hs := State.Readable.of_empty h
    have hlen : s.len.toNat = 0 := by rw [h]; rfl
    have hbnd := hs.bndchkStage_stop (by omega)
    have hcrc := hs.crcchkStage_stop (by omega)
    have hfld := hs.flddecStage_stop (by omega)
    rw [if_pos h] at hbnd
    rw [hlen] at hcrc hfld
    exact ⟨outcome_of_stop hbnd, outcome_of_stop hcrc, outcome_of_stop hfld⟩
  · have hch := ch.offset_lt
    rw [exec_fieldInstr]
    exact outcome_of_stop (fieldStage_stop (hs.readable.readFb16_stop (by omega) h))
  · exact outcome_of_stop (hs.readable.bndchkStage_stop h)
  · exact outcome_of_stop (hs.readable.crcchkStage_stop h)
  · exact outcome_of_stop (hs.readable.flddecStage_stop h)

end Sys2Proof.Machine
end

section
/-! PROOFS. The statements of 30_encoding.md: command words (R60, R61), the vector of a Response Frame and its fields (R62 to R65), the
Request Frame's word (R66), and what the two frame rows do when they are executed (R70, R66). Decoder and encoder are inverse on each
format by the join of adjacent bit fields, said once per format below. -/

namespace Sys2Proof.Machine

/-! ### Command words -/

theorem cmdOp_append_cmdData (w : BitVec 11) : cmdOp w ++ cmdData w = w := BitVec.extractLsb'_append_extractLsb'

/-- The mask 0x700 of the command rows keeps the `op` field and clears `data` (R60). -/
theorem and_opMask (w : BitVec 11) : w &&& 0x700#11 = cmdOp w ++ 0#8 := by
  have hmask : 0x700#11 = BitVec.allOnes 3 ++ 0#8 := by decide
  calc w &&& 0x700#11 = (cmdOp w ++ cmdData w) &&& (BitVec.allOnes 3 ++ 0#8) := by rw [cmdOp_append_cmdData, hmask]
    _ = cmdOp w ++ 0#8 := by rw [BitVec.and_append, BitVec.and_allOnes, BitVec.and_zero]

/-- A command word agrees with a row's match under the mask exactly when its `op` is the row's (R60). -/
theorem and_opMask_eq_iff (w : BitVec 11) (op : BitVec 3) : w &&& 0x700#11 = op ++ 0#8 ↔ cmdOp w = op := by
  rw [and_opMask, BitVec.append_left_inj]

theorem cmdOp_toNat (w : BitVec 11) : (cmdOp w).toNat = w.toNat / 0x100 := by
  have hw := w.isLt
  rw [cmdOp, BitVec.extractLsb'_toNat, Nat.shiftRight_eq_div_pow]
  omega

theorem decode_cmd_push {w : BitVec 11} (h : cmdOp w = 1#3) : decode (.cmd w) = .ok (.push (cmdData w)) := by
  simp [decode, decodeCmd, h]

theorem decode_cmd_endOp {w : BitVec 11} (h : cmdOp w = 2#3) : decode (.cmd w) = .ok .endOp := by
  simp [decode, decodeCmd, h]

theorem decode_cmd_req {w : BitVec 11} (h : cmdOp w = 3#3) : decode (.cmd w) = .ok .req := by
  simp [decode, decodeCmd, h]

theorem decode_cmd_reserved {w : BitVec 11} (h1 : cmdOp w ≠ 1#3) (h2 : cmdOp w ≠ 2#3) (h3 : cmdOp w ≠ 3#3) :
    decode (.cmd w) = .error (.reservedOp (cmdOp w)) := by
  simp [decode, decodeCmd, h1, h2, h3]

/-- The command words that are instructions, by their `op`. -/
theorem decode_cmd_ok_cases {w : BitVec 11} {i : Instr} (h : decode (.cmd w) = .ok i) :
    (cmdOp w = 1#3 ∧ i = .push (cmdData w)) ∨ (cmdOp w = 2#3 ∧ i = .endOp) ∨ (cmdOp w = 3#3 ∧ i = .req) := by
  by_cases h1 : cmdOp w = 1#3
  · rw [decode_cmd_push h1] at h
    cases h
    exact .inl ⟨h1, rfl⟩
  by_cases h2 : cmdOp w = 2#3
  · rw [decode_cmd_endOp h2] at h
    cases h
    exact .inr (.inl ⟨h2, rfl⟩)
  by_cases h3 : cmdOp w = 3#3
  · rw [decode_cmd_req h3] at h
    cases h
    exact .inr (.inr ⟨h3, rfl⟩)
  · rw [decode_cmd_reserved h1 h2 h3] at h
    cases h

theorem pushWord_cmdData {w : BitVec 11} (h : cmdOp w = 1#3) : pushWord (cmdData w) = w := by
  rw [pushWord, ← h, cmdOp_append_cmdData]

/-! ### The Request Frame's word -/

theorem encodeReqf_eq (p0 p1 : Byte) : encodeReqf p0 p1 = reqLiteral ++ (p0 ++ p1) := BitVec.append_assoc

theorem decodeReqf_append (p0 p1 : Byte) : decodeReqf (p0 ++ p1) = .reqf p0 p1 := by
  rw [decodeReqf, BitVec.extractLsb'_append_eq_left, BitVec.extractLsb'_append_eq_right]

/-- Every padding is its two bytes, byte 6 above byte 7. -/
theorem exists_padding_bytes (pad : BitVec 16) : ∃ p0 p1 : Byte, pad = p0 ++ p1 :=
  ⟨pad.extractLsb' 8 8, pad.extractLsb' 0 8, (BitVec.extractLsb'_append_extractLsb' (w := 8) (len := 8)).symm⟩

/-- The 64 bits that are a Request Frame are the literal with any padding behind it (R66). -/
theorem requestPadding_eq_some_iff {q : BitVec 64} {pad : BitVec 16} :
    requestPadding q = some pad ↔ q = reqLiteral ++ pad := by
  unfold requestPadding
  constructor
  · intro h
    split_ifs at h with hlit
    cases h
    rw [← hlit]
    exact (BitVec.extractLsb'_append_extractLsb' (w := 48) (len := 16)).symm
  · rintro rfl
    rw [if_pos BitVec.extractLsb'_append_eq_left, BitVec.extractLsb'_append_eq_right]

/-! ### Words of the opcode table -/

theorem decodeTableWord_eq_some_iff {nbits w : Nat} {i : Instr} :
    decodeTableWord nbits w = some i ↔ ∃ inp, presented nbits w = some inp ∧ decode inp = .ok i := by
  unfold decodeTableWord
  cases presented nbits w with
  | none => simp
  | some inp => cases hd : decode inp <;> simp [hd]

theorem presented_64 (w : Nat) :
    presented 64 w = if w < 2 ^ 64 then (requestPadding (BitVec.ofNat 64 w)).map .reqf else none := rfl

theorem presented_208 (w : Nat) :
    presented 208 w = if w < 2 ^ 208 then some (.rsp (BitVec.ofNat 208 w)) else none := rfl

/-- A 64-bit word presents an item exactly when it is a Request Frame, and then the item is its padding. -/
theorem presented_64_eq_some_iff {w : Nat} {inp : Input} :
    presented 64 w = some inp ↔ ∃ pad, w = (reqLiteral ++ pad).toNat ∧ inp = .reqf pad := by
  rw [presented_64]
  constructor
  · intro h
    split_ifs at h with hw
    obtain ⟨pad, hpad, rfl⟩ := Option.map_eq_some_iff.mp h
    rw [requestPadding_eq_some_iff] at hpad
    exact ⟨pad, by rw [← hpad, BitVec.toNat_ofNat, Nat.mod_eq_of_lt hw], rfl⟩
  · rintro ⟨pad, rfl, rfl⟩
    rw [if_pos (BitVec.isLt _), BitVec.ofNat_toNat, BitVec.setWidth_eq, requestPadding_eq_some_iff.mpr rfl]
    rfl

theorem presented_208_toNat (f : BitVec 208) : presented 208 f.toNat = some (.rsp f) := by
  rw [presented_208, if_pos f.isLt, BitVec.ofNat_toNat, BitVec.setWidth_eq]

/-! ### The vector of a Response Frame -/

/-- The thirteen fields of R62 fill the vector, each right below the one before it. -/
theorem encodeRsp_decodeRsp (v : BitVec 208) : encodeRsp (decodeRsp v) = v := by
  simp only [encodeRsp, decodeRsp, BitVec.extractLsb'_append_extractLsb'_eq_extractLsb']
  exact BitVec.extractLsb'_eq_self

/-- Reading a field drops the fields below it, and what is left of those above ends with it. -/
theorem decodeRsp_encodeRsp (f : RspFrame) : decodeRsp (encodeRsp f) = f := by
  simp (disch := omega) only [encodeRsp, decodeRsp, BitVec.extractLsb'_append_eq_of_le,
    BitVec.extractLsb'_append_eq_right, BitVec.extractLsb'_eq_self, Nat.reduceSub]

/-- A slice of a slice of a vector is a slice of the vector. -/
theorem extractLsb'_extractLsb'_add {n : Nat} (v : BitVec n) {start len start' len' : Nat} (h : start' + len' ≤ len) :
    (v.extractLsb' start len).extractLsb' start' len' = v.extractLsb' (start + start') len' := by
  ext i hi
  have hlt : start' + i < len := by omega
  simp [hlt, Nat.add_assoc]

/-- The join of two bytes stands one byte above the other (R110). -/
theorem be16_eq_append (hi lo : Byte) : be16 hi lo = hi ++ lo :=
  BitVec.setWidth_append_eq_shiftLeft_setWidth_or.symm.trans (BitVec.setWidth_eq _)

/-- Two neighbouring bytes of a vector join to the 16 bits they stand in (R63, R65). -/
theorem be16_frameByte (v : BitVec 208) {i : Nat} (h : i < 25) :
    be16 (frameByte v i) (frameByte v (i + 1)) = v.extractLsb' (8 * (24 - i)) 16 := by
  rw [be16_eq_append, frameByte, frameByte, BitVec.extractLsb'_append_extractLsb'_eq_extractLsb' (by omega),
    Nat.succ_sub_succ]

theorem decodeRsp_field (v : BitVec 208) (ch : Channel) :
    (decodeRsp v).field ch = v.extractLsb' (8 * (24 - ch.offset)) 16 := by
  cases ch <;> rfl

theorem append_inj_iff {m n : Nat} {a c : BitVec m} {b d : BitVec n} : a ++ b = c ++ d ↔ a = c ∧ b = d := by
  constructor
  · intro h
    have hhigh := congrArg (BitVec.extractLsb' n m) h
    have hlow := congrArg (BitVec.extractLsb' 0 n) h
    rw [BitVec.extractLsb'_append_eq_left, BitVec.extractLsb'_append_eq_left] at hhigh
    rw [BitVec.extractLsb'_append_eq_right, BitVec.extractLsb'_append_eq_right] at hlow
    exact ⟨hhigh, hlow⟩
  · rintro ⟨rfl, rfl⟩
    rfl

/-- The mask of the `RSP` row keeps the two marker bytes and clears the 24 bytes between them (R64). -/
theorem and_markerMask (v : BitVec 208) :
    v &&& 0xFF000000000000000000000000000000000000000000000000FF#208 =
      (decodeRsp v).start ++ 0#192 ++ (decodeRsp v).stop := by
  have hmask : 0xFF000000000000000000000000000000000000000000000000FF#208 =
    BitVec.allOnes 8 ++ 0#192 ++ BitVec.allOnes 8 := by decide
  have hjoin : (decodeRsp v).start ++ v.extractLsb' 8 192 ++ (decodeRsp v).stop = v := by
    simp only [decodeRsp, BitVec.extractLsb'_append_extractLsb'_eq_extractLsb']
    exact BitVec.extractLsb'_eq_self
  calc v &&& 0xFF000000000000000000000000000000000000000000000000FF#208
      = ((decodeRsp v).start ++ v.extractLsb' 8 192 ++ (decodeRsp v).stop) &&&
          (BitVec.allOnes 8 ++ 0#192 ++ BitVec.allOnes 8) := by rw [hjoin, hmask]
    _ = (decodeRsp v).start ++ 0#192 ++ (decodeRsp v).stop := by
      rw [BitVec.and_append, BitVec.and_append, BitVec.and_allOnes, BitVec.and_allOnes, BitVec.and_zero]

theorem rspFrame_wf_iff (f : RspFrame) : f.wf = true ↔ f.start = 0x7E#8 ∧ f.stop = 0x7E#8 := by
  simp [RspFrame.wf]

/-! ### Decode of encode -/

/-- The item that presents an instruction is read as that instruction. -/
theorem decode_of_encode {i : Instr} {inp : Input} (h : encode i = some inp) : decode inp = .ok i := by
  cases i with
  | push b => cases h; exact decode_pushWord b
  | endOp | req | reset => cases h; rfl
  | rsp f => cases h; exact congrArg (Except.ok ∘ Instr.rsp) (decodeRsp_encodeRsp f)
  | reqf p0 p1 => cases h; exact congrArg Except.ok (decodeReqf_append p0 p1)
  | lenchk | bndchk | crcchk | flddec | fldPm1_0 | fldPm2_5 | fldPm4_0 | fldPm10_0 | fldVoc | fldRh | fldTemp | dispatch
  | crc8Update => cases h

theorem decodeTableWord_of_encode {nbits w : Nat} {i : Instr} {inp : Input} (hp : presented nbits w = some inp)
    (h : encode i = some inp) : decodeTableWord nbits w = some i :=
  decodeTableWord_eq_some_iff.mpr ⟨inp, hp, decode_of_encode h⟩

/-! ### The statements about words -/

/-- Settles O10: under the mask the two vectors are the markers around 24 zero bytes. -/
theorem markersAreMatchUnderMask : Obligations.MarkersAreMatchUnderMask := by
  intro v
  have hmatch : 0x7E0000000000000000000000000000000000000000000000007E#208 = 0x7E#8 ++ 0#192 ++ 0x7E#8 := by decide
  rw [rspFrame_wf_iff, and_markerMask, hmatch, append_inj_iff, append_inj_iff]
  simp

/-- Settles O9: a frame is the fields of its vector, and each field's bytes are slices of that vector. -/
theorem responseFrameByteOrder : Obligations.ResponseFrameByteOrder := by
  intro f
  obtain ⟨v, rfl⟩ : ∃ v, f = decodeRsp v := ⟨_, (decodeRsp_encodeRsp f).symm⟩
  rw [RspFrame.bytes, encodeRsp_decodeRsp]
  simp (disch := decide) only [decodeRsp, extractLsb'_extractLsb'_add]
  rfl

/-- Settles O8: fields and bytes are slices of one vector, at the same place. -/
theorem frameFieldsAreItsBytes : Obligations.FrameFieldsAreItsBytes := by
  refine fun v => ⟨fun ch => ?_, rfl, rfl, rfl, rfl, rfl, fun k hk => ?_⟩
  · rw [decodeRsp_field, be16_frameByte v (by have := ch.offset_lt; omega)]
  · rw [decodeRsp, extractLsb'_extractLsb'_add v (by omega), frameByte]
    congr 1
    omega

/-- Settles O6: the words of the two frame rows present the item that `encode` answers. -/
theorem decodeOfEncode : Obligations.DecodeOfEncode := by
  refine ⟨fun _ _ => decode_of_encode, fun p0 p1 => ?_, fun f => ?_⟩
  · exact decodeTableWord_of_encode (presented_64_eq_some_iff.mpr ⟨p0 ++ p1, by rw [encodeReqf_eq], rfl⟩) rfl
  · exact decodeTableWord_of_encode (presented_208_toNat (encodeRsp f)) rfl

/-- Settles O7: the joined fields are the item, `op` and the literal being what the row fixes. -/
theorem encodeOfDecode : Obligations.EncodeOfDecode := by
  refine ⟨fun inp i h => ?_, fun w i h => ?_⟩
  · cases inp with
    | cmd w =>
      obtain ⟨hop, rfl⟩ | ⟨hop, rfl⟩ | ⟨hop, rfl⟩ := decode_cmd_ok_cases h
      · exact .inl (by rw [encode, pushWord_cmdData hop])
      · exact .inr ⟨w, rfl, .inl ⟨rfl, (and_opMask_eq_iff w 2#3).mpr hop⟩⟩
      · exact .inr ⟨w, rfl, .inr ⟨rfl, (and_opMask_eq_iff w 3#3).mpr hop⟩⟩
    | rst => cases h; exact .inl rfl
    | rsp v => cases h; exact .inl (by rw [encode, encodeRsp_decodeRsp])
    | reqf pad =>
      cases h
      obtain ⟨p0, p1, rfl⟩ := exists_padding_bytes pad
      rw [decodeReqf_append]
      exact .inl rfl
  · obtain ⟨inp, hp, hd⟩ := decodeTableWord_eq_some_iff.mp h
    obtain ⟨pad, rfl, rfl⟩ := presented_64_eq_some_iff.mp hp
    obtain ⟨p0, p1, rfl⟩ := exists_padding_bytes pad
    cases hd
    exact ⟨p0, p1, decodeReqf_append p0 p1, by rw [encodeReqf_eq]⟩

/-- Settles O3: the reserved words are those whose `op` is below 1 or above 3. -/
theorem reservedCommandRefused : Obligations.ReservedCommandRefused := by
  intro s w rest hinputs hw
  have hop (op : BitVec 3) (h1 : 1 ≤ op.toNat) (h3 : op.toNat ≤ 3) : cmdOp w ≠ op := by
    rintro rfl
    rw [cmdOp_toNat] at h1 h3
    omega
  rw [step_cons hinputs, decode_cmd_reserved (hop 1#3 (by decide) (by decide)) (hop 2#3 (by decide) (by decide))
    (hop 3#3 (by decide) (by decide))]
  rfl

/-- Settles O4: match and mask test the `op` field. -/
theorem commandWordsByMatchAndMask : Obligations.CommandWordsByMatchAndMask := by
  intro w
  have hdata : w.setWidth 8 = cmdData w := BitVec.setWidth_eq_extractLsb' (by omega)
  have hmask := and_opMask_eq_iff w
  refine ⟨fun h => ?_, fun h => ?_, fun h => ?_, fun h1 h2 h3 => ?_⟩
  · rw [decode_cmd_push ((hmask 1#3).mp h), hdata]
  · exact decode_cmd_endOp ((hmask 2#3).mp h)
  · exact decode_cmd_req ((hmask 3#3).mp h)
  · exact decode_cmd_reserved (fun e => h1 ((hmask 1#3).mpr e)) (fun e => h2 ((hmask 2#3).mpr e))
      (fun e => h3 ((hmask 3#3).mpr e))

/-- Settles O5: the words are closed, so the decoder computes. -/
theorem sampleWordsDecode : Obligations.SampleWordsDecode := by
  unfold Obligations.SampleWordsDecode
  decide

/-! ### Executing the two frame rows -/

/-- Settles O38: both rows are one `emit` of the same form. -/
theorem reqfTransmitsItsBytes : Obligations.ReqfTransmitsItsBytes := ⟨fun _ _ _ => rfl, fun _ => rfl⟩

/-- 26 bytes pushed into an empty buffer fill it (R80). -/
theorem pushBytes_holds {s : State} {bs : List Byte} (hlen : s.len = 0#5) (hbs : bs.length = 26) :
    (s.pushBytes bs).Holds bs := by
  have hlen0 : s.len.toNat = 0 := by rw [hlen]; rfl
  have hfull : (s.pushBytes bs).len.toNat = 26 := by
    rw [pushBytes_len (by omega), hlen0, hbs]
    rfl
  refine ⟨BitVec.eq_of_toNat_eq hfull, hbs, fun i hi => readFb_eq_ok.mpr ⟨by omega, ?_⟩⟩
  rw [pushBytes_read, hlen0, if_pos (by omega), Nat.sub_zero, List.getElem?_eq_getElem (by omega),
    List.getD_eq_getElem _ _ (by omega)]

/-- `END` of a full buffer outputs the classification of its 26 bytes and discards the frame (R81, R94). -/
theorem endOperation_full {s : State} {frame : List Byte} (h : s.Holds frame) :
    endOperation s = .next (s.emit (frameOutput s.sinkEn frame)).discard := by
  have hne : s.len ≠ 0#5 := by rw [h.full]; decide
  have hlength : frame.length ≠ 0 := by rw [h.length]; decide
  rw [endOperation, if_neg hne, decodePipeline_full h, frameOutput, if_neg hlength, if_neg (not_not.mpr h.length)]
  split_ifs <;> rfl

/-- Settles O33: the pushes fill the buffer, and the `END` classifies what fills it. -/
theorem rspDecodesFromEmpty : Obligations.RspDecodesFromEmpty := by
  intro s f hlen
  have hlen0 : s.len.toNat = 0 := by rw [hlen]; rfl
  have hbytes := bytes_length f
  rw [exec_rsp, endOperation_full (pushBytes_holds hlen hbytes)]
  generalize f.bytes = bs at *
  refine ⟨_, rfl, ?_, rfl, fun i hi => ?_, fun a ha => ?_, ?_⟩
  · rw [State.discard_outs, State.emit_outs, pushBytes_outs, pushBytes_sinkEn, hbytes]
  · rw [State.discard_fb, State.emit_fb, pushBytes_read, hlen0, if_pos (by omega), Nat.sub_zero]
  · rw [State.discard_fb, State.emit_fb, pushBytes_read, if_neg (by omega)]
  · rw [pushBytes_eq]
    rfl

/-- A run goes on from the state its first part ends in. -/
theorem core_run_add (M : Host.Core) {s t : M.State} (m n : Nat) (h : M.run m s = .next t) :
    M.run (m + n) s = M.run n t := by
  induction m generalizing s with
  | zero =>
    cases h
    rw [Nat.zero_add]
  | succ m ih =>
    rw [Nat.succ_add]
    cases hs : M.step s with
    | next u =>
      rw [core_run_next M _ hs] at h ⊢
      exact ih h
    | fault f =>
      rw [core_run_fault M _ hs] at h
      cases h
    | refused r =>
      rw [core_run_refused M _ hs] at h
      cases h

theorem run_one (s : State) : Host.Core.run core 1 s = step s := by
  cases hs : step s with
  | next t => exact run_next 0 hs
  | fault f => exact run_fault 0 hs
  | refused r => exact run_refused 0 hs

/-- The canonical `END` word executes `END` (R81). -/
theorem step_endWord {s : State} {rest : List Input} (h : s.inputs = .cmd endWord :: rest) :
    step s = endOperation (s.setInputs rest) := step_cons h

/-- A run over a presented drain appends its bytes and then executes the `END` (R70). -/
theorem run_drainInputs {s : State} (bytes : List Byte) {rest : List Input} (h : s.inputs = drainInputs bytes ++ rest) :
    Host.Core.run core (bytes.length + 1) s = endOperation ((s.pushBytes bytes).setInputs rest) := by
  rw [drainInputs, List.append_assoc] at h
  rw [core_run_add core _ 1 (run_pushWords bytes h)]
  exact (run_one _).trans (step_endWord rfl)

/-- Settles O35: both sides are the bytes pushed and one `END`. -/
theorem rspIsItsDrain : Obligations.RspIsItsDrain := by
  intro s f rest hinputs
  have hrun := run_drainInputs f.bytes hinputs
  rw [bytes_length] at hrun
  rw [hrun, exec_rsp, pushBytes_setInputs]

end Sys2Proof.Machine
end

section
/-! PROOFS. The statements of 40_assembler.md about a single `PUSH` and a single `END`: what a `PUSH` stores and leaves unchanged (R80),
and that `END` completes from every state that meets the invariant (R81, R83). -/

namespace Sys2Proof.Machine

/-! ### `PUSH` -/

theorem exec_push (b : Byte) (s : State) : exec (.push b) s = .next (s.pushByte b) := rfl

/-- `PUSH b` is the word `0x100 | b` (R80). -/
theorem pushWord_eq_or (b : Byte) : pushWord b = 0x100#11 ||| b.setWidth 11 :=
  (BitVec.setWidth_eq _).symm.trans (BitVec.setWidth_append_eq_shiftLeft_setWidth_or (w'' := 11))

/-- An index readable in two states whose cells there are alike reads alike. -/
theorem readFb_congr_cell {s t : State} {i : Nat} (hs : i < min s.len.toNat 26) (ht : i < min t.len.toNat 26)
    (h : t.fb.read i = s.fb.read i) : t.readFb i = s.readFb i := by
  unfold State.readFb
  rw [if_pos hs, if_pos ht, h]

/-- A byte below `min(LEN, 26)` reads the same after a `PUSH` (R21, R80). -/
theorem pushByte_readFb_old {s : State} {i : Nat} (b : Byte) (hi : i < min s.len.toNat 26) :
    (s.pushByte b).readFb i = s.readFb i := by
  refine readFb_congr_cell hi ?_ ?_
  · rw [pushByte_len]
    split_ifs <;> omega
  · rw [pushByte_read, if_neg (by omega)]

/-- The byte a `PUSH` stores is readable after it (R21, R80). -/
theorem pushByte_readFb_new {s : State} (b : Byte) (h : s.len.toNat ≤ 25) :
    (s.pushByte b).readFb s.len.toNat = .ok b := by
  refine readFb_eq_ok.mpr ⟨?_, ?_⟩
  · rw [pushByte_len, if_pos h]
    omega
  · rw [pushByte_read, if_pos ⟨h, rfl⟩]

/-- Settles O11: the word is `pushWord b`, and each length is in one case of `pushByte_cases`. -/
theorem pushAppendsByte : Obligations.PushAppendsByte := by
  intro s b
  rw [← pushWord_eq_or, exec_push]
  refine ⟨decode_pushWord b, ?_⟩
  obtain ⟨hlen, e⟩ | ⟨hlen, e⟩ | ⟨hlen, e⟩ := pushByte_cases s b <;> rw [e]
  · exact ⟨fun _ => rfl, fun h => by omega, fun h => by omega⟩
  · exact ⟨fun h => by omega, fun _ => rfl, fun h => by omega⟩
  · exact ⟨fun h => by omega, fun h => by omega, fun _ => rfl⟩

/-- Settles O12: the laws of `PUSH`, field by field. -/
theorem pushFrame : Obligations.PushFrame := by
  intro s t b h
  cases h
  refine ⟨fun a ha => ?_, fun i => pushByte_readFb_old b, fun hlen => ⟨pushByte_readFb_new b hlen, ?_⟩,
    pushByte_sinkEn s b, pushByte_reqPad0 s b, pushByte_reqPad1 s b, pushByte_crc s b, pushByte_raw s b,
    pushByte_inputs s b, pushByte_outs s b⟩
  · rw [pushByte_read, if_neg ha]
  · rw [pushByte_len, if_pos hlen]

/-! ### `END` -/

theorem exec_endOp (s : State) : exec .endOp s = endOperation s := rfl

/-- `END` of an empty buffer outputs nothing (R81). -/
theorem endOperation_empty {s : State} (h : s.len = 0#5) : endOperation s = .next (s.emit .silent).discard := if_pos h

/-- `END` at any length but 0 and 26 rejects at stage 1, whatever the buffer holds (R81, R91). -/
theorem endOperation_wrongLength {s : State} (h0 : s.len ≠ 0#5) (h26 : s.len ≠ 26#5) :
    endOperation s = .next (s.raiseReject .length) := by
  rw [endOperation, if_neg h0, decodePipeline, lenchkStage_eq, if_neg h26]
  rfl

/-- Under the invariant a buffer with `LEN == 26` holds the 26 bytes of its cells (R21). -/
theorem State.Inv.exists_holds {s : State} (hs : s.Inv) (h : s.len = 26#5) : ∃ frame, s.Holds frame := by
  have hlen : s.len.toNat = 26 := by rw [h]; rfl
  refine ⟨(List.range 26).map fun i => (s.fb.read i).getD 0#8, h, by simp, fun i hi => ?_⟩
  obtain ⟨b, hb⟩ := hs.readFb (i := i) (by omega)
  simp [hb, hi, (readFb_eq_ok.mp hb).2]

/-- Under the invariant `END` reads no byte without a value, so it completes at every length (R81, R91, R94). -/
theorem State.Inv.endOperation_completes {s : State} (hs : s.Inv) : ∃ t, Machine.endOperation s = .next t := by
  by_cases h0 : s.len = 0#5
  · exact ⟨_, endOperation_empty h0⟩
  by_cases h26 : s.len = 26#5
  · obtain ⟨frame, hframe⟩ := hs.exists_holds h26
    exact ⟨_, endOperation_full hframe⟩
  · exact ⟨_, endOperation_wrongLength h0 h26⟩

/-- Settles O20: the invariant has no transient values, so an `END` that completes changes `LEN` and the observation alone. -/
theorem endAlwaysCompletes : Obligations.EndAlwaysCompletes := by
  intro s hs
  obtain ⟨t, ht⟩ := hs.endOperation_completes
  obtain ⟨o, ho, rfl⟩ := endOperation_next ht
  exact ⟨_, o, ht, by rw [hs.noCrc, hs.noRaw], ho, (exec_endOp _).trans (endOperation_empty rfl)⟩

end Sys2Proof.Machine
end

section
/-! PROOFS. The statements of 41_frame_check.md: the verdicts of the length and boundary checks (R91, R92), `END` as its stages in order
(R90), and what `END` outputs for a full buffer and for the bytes of a drain (R94, R122). -/

namespace Sys2Proof.Machine

/-! ### The first two checks -/

theorem exec_lenchk (s : State) : exec .lenchk s = (lenchkStage s).outcome := rfl

theorem exec_bndchk (s : State) : exec .bndchk s = (bndchkStage s).outcome := rfl

/-- Settles O21: the two branches of the length check. -/
theorem lenchkVerdict : Obligations.LenchkVerdict := by
  intro s
  rw [exec_lenchk, lenchkStage_eq]
  constructor <;> intro h
  · rw [if_pos h, outcome_pass]
  · rw [if_neg h]
    rfl

/-- Settles O22: the two branches of the boundary check on readable markers. -/
theorem bndchkVerdict : Obligations.BndchkVerdict := by
  intro s a z ha hz
  rw [exec_bndchk, bndchkStage_eq ha hz]
  constructor <;> intro h
  · rw [if_pos h, outcome_pass]
  · rw [if_neg h]
    rfl

/-! ### `END` as its stages -/

theorem StageEnd.andThen_assoc (r : StageEnd) (f g : State → StageEnd) :
    (r.andThen f).andThen g = r.andThen fun s => (f s).andThen g := by cases r <;> rfl

theorem StageEnd.andThen_pass_self (r : StageEnd) : r.andThen .pass = r := by cases r <;> rfl

theorem rejectedSince_of_outs_eq {s t : State} (h : t.outs = s.outs) : rejectedSince s t = false := by
  simp [rejectedSince, h]

theorem rejectedSince_raiseReject (s : State) (c : Cause) : rejectedSince s (s.raiseReject c) = true := by
  simp [rejectedSince]

theorem rejectedSince_emit_publish (s : State) (pub : PerChannel (Option Pub)) :
    rejectedSince s (s.emit (.publish pub)) = false := by
  simp [rejectedSince]

/-- How a stage begun in `s` may end for `runRows` to see a reject exactly where it rejects: a pass leaves no new diagnostic as the last
record, and a reject leaves the state as it stands for `raiseReject`. -/
def StageEnd.VisibleFrom (s : State) : StageEnd → Prop
  | .pass t => rejectedSince s t = false
  | .reject _ t => t = s
  | .stop _ => True

/-- A check that passes or rejects the state as it stands, or stops. -/
theorem StageEnd.visibleFrom_of_check {s : State} {r : StageEnd} {c : Cause}
    (h : r = .pass s ∨ r = .reject c s ∨ ∃ f, r = .stop f) : r.VisibleFrom s := by
  obtain rfl | rfl | ⟨f, rfl⟩ := h
  · exact rejectedSince_of_outs_eq rfl
  · rfl
  · trivial

theorem OnlyRaw.visibleFrom {s : State} {r : StageEnd} (h : OnlyRaw s r) : r.VisibleFrom s := by
  obtain ⟨v, rfl⟩ | ⟨f, rfl⟩ := h
  · exact rejectedSince_of_outs_eq rfl
  · trivial

theorem dispatchStage_visibleFrom (s : State) : (dispatchStage s).VisibleFrom s := by
  rcases dispatchStage_cases s with e | ⟨ch, e⟩ <;> rw [e]
  · exact rejectedSince_emit_publish s _
  · trivial

/-- A stage's row before other rows is the stage before their stages (R90). -/
theorem runRows_cons_stage {i : Instr} {rows : List Instr} {s : State} {r : StageEnd} {next : State → StageEnd}
    (hexec : exec i s = r.outcome) (hr : r.VisibleFrom s) (hrows : ∀ t, runRows rows t = (next t).outcome) :
    runRows (i :: rows) s = (r.andThen next).outcome := by
  rw [runRows, hexec]
  cases r with
  | pass t =>
    have hpass : rejectedSince s t = false := hr
    simp [hpass, hrows]
  | reject c t =>
    obtain rfl : t = s := hr
    simp [rejectedSince_raiseReject]
  | stop f => rfl

/-- The five rows one after another are `decode()` (R90). -/
theorem runRows_stageRows (s : State) : runRows stageRows s = (decodePipeline s).outcome := by
  have hdispatch (t : State) : runRows [.dispatch] t = (dispatchStage t).outcome := by
    rw [← (dispatchStage t).andThen_pass_self]
    exact runRows_cons_stage rfl (dispatchStage_visibleFrom t) fun _ => rfl
  have hflddec (t : State) := runRows_cons_stage (i := .flddec) rfl (flddecStage_cases t).visibleFrom hdispatch
  have hcrcchk (t : State) :=
    runRows_cons_stage (i := .crcchk) rfl (StageEnd.visibleFrom_of_check (crcchkStage_cases t)) hflddec
  have hbndchk (t : State) :=
    runRows_cons_stage (exec_bndchk t) (StageEnd.visibleFrom_of_check (bndchkStage_cases t)) hcrcchk
  have hlenchk := runRows_cons_stage (exec_lenchk s)
    (StageEnd.visibleFrom_of_check ((lenchkStage_cases s).imp_right .inl)) hbndchk
  simp only [decodePipeline, StageEnd.andThen_assoc]
  exact hlenchk

/-- Settles O31: a non-empty buffer is decoded and closed, and `decode()` is its rows. -/
theorem endIsItsStages : Obligations.EndIsItsStages := by
  intro s h
  rw [exec_endOp, endOperation, if_neg h, runRows_stageRows]

/-! ### What `END` outputs -/

/-- Settles O16: stage 1 rejects. -/
theorem endWrongLengthRejects : Obligations.EndWrongLengthRejects := fun _ h0 h26 => endOperation_wrongLength h0 h26

/-- Settles O17: the classification of a full buffer, then the discard. -/
theorem endClassifiesFullBuffer : Obligations.EndClassifiesFullBuffer := fun _ _ h => endOperation_full h

/-- Case L of R94. -/
theorem frameOutput_wrongLength (sinkEn : BitVec 7) {bytes : List Byte} (h0 : bytes.length ≠ 0) (h26 : bytes.length ≠ 26) :
    frameOutput sinkEn bytes = .diag .length := by rw [frameOutput, if_neg h0, if_pos h26]

theorem hasMarkers_eq_true_iff (frame : List Byte) :
    hasMarkers frame = true ↔ frame.getD 0 0#8 = 0x7E#8 ∧ frame.getD 25 0#8 = 0x7E#8 := by
  simp only [hasMarkers, Bool.and_eq_true, beq_iff_eq]

theorem hasChecksum_eq_true_iff (frame : List Byte) :
    hasChecksum frame = true ↔ crc8 ((frame.drop 1).take 23) = frame.getD 24 0#8 := beq_iff_eq

/-- Case V of R94. -/
theorem frameOutput_valid (sinkEn : BitVec 7) {frame : List Byte} (hlength : frame.length = 26)
    (hmarkers : hasMarkers frame = true) (hchecksum : hasChecksum frame = true) :
    frameOutput sinkEn frame = .publish (publishOf sinkEn frame) := by
  simp [frameOutput, hlength, hmarkers, hchecksum]

/-- The join of two bytes as a number (R110). -/
theorem be16_toNat (hi lo : Byte) : (be16 hi lo).toNat = 256 * hi.toNat + lo.toNat := by
  rw [be16_eq_append, BitVec.toNat_append, ← Nat.shiftLeft_add_eq_or_of_lt lo.isLt, Nat.shiftLeft_eq, Nat.mul_comm]

theorem publishOf_get_detached {sinkEn : BitVec 7} {ch : Channel} (frame : List Byte)
    (h : sinkEn.getLsbD ch.index = false) : (publishOf sinkEn frame).get ch = none := by
  simp [publishOf, h]

theorem publishOf_get_attached {sinkEn : BitVec 7} {ch : Channel} (frame : List Byte)
    (h : sinkEn.getLsbD ch.index = true) : (publishOf sinkEn frame).get ch = some ⟨rawField frame ch, ch.scale⟩ := by
  simp [publishOf, h]

/-- Settles O19: a valid frame is case V, whose publish vector is read channel by channel. -/
theorem endPublishesValidFrame : Obligations.EndPublishesValidFrame := by
  intro s frame hs hstart hstop hcrc
  have hvalid := frameOutput_valid s.sinkEn hs.length ((hasMarkers_eq_true_iff frame).mpr ⟨hstart, hstop⟩)
    ((hasChecksum_eq_true_iff frame).mpr hcrc)
  refine ⟨_, publishOf s.sinkEn frame, endOperation_full hs, rfl, by rw [hvalid]; rfl, fun ch => ?_⟩
  exact ⟨publishOf_get_detached frame, fun h => ⟨_, publishOf_get_attached frame h, rfl, be16_toNat _ _⟩⟩

/-- `END` after any bytes pushed into an empty buffer outputs the classification of those bytes (R23, R94). -/
theorem endOperation_pushBytes {s : State} (h : s.len = 0#5) (bytes : List Byte) :
    endOperation (s.pushBytes bytes) = .next ((s.pushBytes bytes).emit (frameOutput s.sinkEn bytes)).discard := by
  have hlen0 : s.len.toNat = 0 := by rw [h]; rfl
  have hlen : (s.pushBytes bytes).len.toNat = min bytes.length 27 := by
    rw [pushBytes_len (by omega), hlen0, Nat.zero_add]
  by_cases hempty : bytes.length = 0
  · obtain rfl := List.length_eq_zero_iff.mp hempty
    exact endOperation_empty h
  by_cases hfull : bytes.length = 26
  · rw [endOperation_full (pushBytes_holds h hfull), pushBytes_sinkEn]
  · have hlen_ne {n : BitVec 5} (hn : n.toNat ≠ min bytes.length 27) : (s.pushBytes bytes).len ≠ n := by
      rintro rfl
      exact hn hlen
    have h0 : (s.pushBytes bytes).len ≠ 0#5 := hlen_ne (by simp only [BitVec.toNat_ofNat]; omega)
    have h26 : (s.pushBytes bytes).len ≠ 26#5 := hlen_ne (by simp only [BitVec.toNat_ofNat]; omega)
    rw [endOperation_wrongLength h0 h26, frameOutput_wrongLength _ hempty hfull]
    rfl

/-- Settles O14: the run is the bytes pushed and one `END`, which classifies them. -/
theorem drainOutputsClassification : Obligations.DrainOutputsClassification := by
  intro s bytes rest hlen hinputs
  have hend := endOperation_pushBytes (s := s.setInputs rest) hlen bytes
  rw [pushBytes_setInputs] at hend
  refine ⟨_, (run_drainInputs bytes hinputs).trans hend, rfl, rfl, ?_, pushBytes_sinkEn s bytes, pushBytes_reqPad0 s bytes,
    pushBytes_reqPad1 s bytes⟩
  exact congrArg (· ++ [frameOutput s.sinkEn bytes]) (pushBytes_outs s bytes)

end Sys2Proof.Machine
end

section
/-! PROOFS. The statements of 42_crc8.md. The byte step is eight iterations of `crcShift` on `c ^ b`, and `crcShift` is additive and
injective: from the first come the parallel form (R105) and additivity (R106 (b)), from the second the bijections (R106 (a)), the one
passing checksum (R106 (c)) and the detection of a changed byte (R106 (d)). -/

namespace Sys2Proof.Machine

/-! ### Additive maps on bit vectors -/

/-- Linear over GF(2): the map carries XOR to XOR (R105). -/
def XorAdditive {w : Nat} (f : BitVec w → BitVec w) : Prop := ∀ x y, f (x ^^^ y) = f x ^^^ f y

section XorAdditive
variable {w : Nat} {f g : BitVec w → BitVec w}

theorem XorAdditive.map_zero (hf : XorAdditive f) : f 0 = 0 := by
  have h := hf 0 0
  rwa [LawfulXor.xor_self, LawfulXor.xor_self] at h

theorem XorAdditive.iterate (hf : XorAdditive f) (n : Nat) : XorAdditive f^[n] := by
  intro x y
  induction n generalizing x y with
  | zero => rfl
  | succ n ih => simp only [Function.iterate_succ_apply, hf x y, ih]

/-- An additive map that sends only zero to zero is injective. -/
theorem XorAdditive.injective (hf : XorAdditive f) (hzero : ∀ x, f x = 0 → x = 0) : Function.Injective f := by
  intro x y hxy
  exact xor_eq_zero_iff.mp (hzero _ (by rw [hf, hxy, LawfulXor.xor_self]))

/-- Two additive maps that agree on the powers of two agree everywhere: a vector is the XOR of the powers of two of its set bits. -/
theorem XorAdditive.eq_of_twoPow (hf : XorAdditive f) (hg : XorAdditive g)
    (h : ∀ j, j < w → f (BitVec.twoPow w j) = g (BitVec.twoPow w j)) (x : BitVec w) : f x = g x := by
  suffices ∀ n ≤ w, ∀ x : BitVec w, (∀ i, n ≤ i → x.getLsbD i = false) → f x = g x from
    this w le_rfl x fun i hi => x.getLsbD_of_ge i hi
  intro n hn
  induction n with
  | zero =>
    intro x hx
    obtain rfl : x = 0 := BitVec.eq_of_getLsbD_eq fun i _ => by simp [hx i]
    rw [hf.map_zero, hg.map_zero]
  | succ n ih =>
    intro x hx
    by_cases hbit : x.getLsbD n
    · have hrest : f (x ^^^ BitVec.twoPow w n) = g (x ^^^ BitVec.twoPow w n) := by
        refine ih (by omega) _ fun i hi => ?_
        rcases hi.eq_or_lt with rfl | hlt
        · simp [hbit]; omega
        · simp [hx i hlt, hlt.ne]
      rwa [hf, hg, h n (by omega), BitVec.xor_left_inj] at hrest
    · refine ih (by omega) x fun i hi => ?_
      rcases hi.eq_or_lt with rfl | hlt
      · simpa using hbit
      · exact hx i hlt

end XorAdditive

/-! ### The byte step -/

theorem crc8Update_eq_iterate (c b : Byte) : crc8Update c b = crcShift^[8] (c ^^^ b) := rfl

theorem crcShift_xorAdditive : XorAdditive crcShift := by
  intro x y
  simp only [crcShift, BitVec.getLsbD_xor, BitVec.shiftLeft_xor_distrib]
  cases x.getLsbD 7 <;> cases y.getLsbD 7
  · rfl
  · exact BitVec.xor_assoc _ _ _
  · show x <<< 1 ^^^ y <<< 1 ^^^ crcPoly = x <<< 1 ^^^ crcPoly ^^^ y <<< 1
    ac_rfl
  · show x <<< 1 ^^^ y <<< 1 = x <<< 1 ^^^ crcPoly ^^^ (y <<< 1 ^^^ crcPoly)
    rw [BitVec.xor_comm (y <<< 1), BitVec.xor_assoc, xor_cancel_left]


/-- The polynomial has bit 0 set, so the bit shifted out comes back as bit 0. -/
theorem crcShift_bit_zero (x : Byte) : (crcShift x).getLsbD 0 = x.getLsbD 7 := by
  unfold crcShift
  split <;> simp_all [crcPoly]

/-- An iteration that gives zero shifted a zero out, so it XORed nothing and the seven lower bits were zero too. -/
theorem crcShift_bijective : Function.Bijective crcShift := by
  refine (crcShift_xorAdditive.injective fun x hx => ?_).bijective_of_finite
  have htop : x.getLsbD 7 = false := by rw [← crcShift_bit_zero, hx]; rfl
  rw [crcShift, if_neg (Bool.eq_false_iff.mp htop)] at hx
  refine BitVec.eq_of_getLsbD_eq fun i hi => ?_
  rcases (show i = 7 ∨ i + 1 < 8 by omega) with rfl | hlow
  · simpa using htop
  · have hbit := congrArg (BitVec.getLsbD · (i + 1)) hx
    simpa [-BitVec.getLsbD_eq_getElem, hlow] using hbit

theorem crcByte_xorAdditive : XorAdditive crcShift^[8] := crcShift_xorAdditive.iterate 8

theorem crc8Parallel_xorAdditive : XorAdditive crc8Parallel := by
  intro x y
  refine BitVec.eq_of_getLsbD_eq fun i hi => ?_
  rw [BitVec.getLsbD_xor]
  simp only [crc8Parallel, BitVec.getLsbD_ofBoolListBE, BitVec.getLsbD_xor]
  interval_cases i
  all_goals
    simp only [List.length_cons, List.length_nil, List.getD_cons_succ, List.getD_cons_zero, Nat.reduceAdd, Nat.reduceSub,
      Nat.reduceLT, decide_true, Bool.true_and,
      Bool.xor_assoc, Bool.xor_left_comm (y.getLsbD _) (x.getLsbD _)]

/-- Settles O52: both forms are additive, and they agree at the eight powers of two. -/
theorem crcParallelForm : Obligations.CrcParallelForm := by
  refine ⟨fun c b => ?_, crc8Parallel_xorAdditive, by decide, by decide⟩
  exact crcByte_xorAdditive.eq_of_twoPow crc8Parallel_xorAdditive (by decide) (c ^^^ b)

theorem crc8Update_bijective_right (c : Byte) : Function.Bijective (crc8Update c) :=
  (crcShift_bijective.iterate 8).comp (xor_right_involutive c).bijective

theorem crc8Update_bijective_left (b : Byte) : Function.Bijective fun c => crc8Update c b :=
  (crcShift_bijective.iterate 8).comp (xor_left_involutive b).bijective

/-- Settles O53: XOR with a fixed byte is a bijection, and so are the eight iterations. -/
theorem crcStepBijective : Obligations.CrcStepBijective := ⟨crc8Update_bijective_right, crc8Update_bijective_left⟩

/-- Settles O54: `c ^ d ^ b` is `c ^ b` and `d ^ 0`. -/
theorem crcStepAdditive : Obligations.CrcStepAdditive := by
  refine ⟨fun c d b => ?_, rfl⟩
  have hsplit : c ^^^ d ^^^ b = (c ^^^ b) ^^^ (d ^^^ 0) := by rw [xor_zero]; ac_rfl
  rw [crc8Update_eq_iterate, hsplit, crcByte_xorAdditive]
  rfl

theorem exec_crc8Update (c b : Byte) (s : State) : exec (.crc8Update c b) s = .next (s.setCrc (some (crc8Update c b))) := rfl

/-- Settles O28: the row is one `setCrc`. -/
theorem crcUpdateSetsRunningCrc : Obligations.CrcUpdateSetsRunningCrc := fun s c b => exec_crc8Update c b s

/-! ### The checksum of a frame -/

theorem exec_crcchk (s : State) : exec .crcchk s = (crcchkStage s).outcome := rfl

/-- Settles O23: the two branches of the checksum check on readable bytes. -/
theorem crcchkVerdict : Obligations.CrcchkVerdict := by
  intro s b hb
  rw [exec_crcchk, crcchkStage_eq b hb]
  constructor <;> intro h
  · rw [if_pos h, outcome_pass]
  · rw [if_neg h]
    rfl

/-- The bytes 1 to 23 do not hold byte 24. -/
theorem covered_set_checksum (frame : List Byte) (c : Byte) :
    ((frame.set 24 c).drop 1).take 23 = (frame.drop 1).take 23 := by
  rw [List.drop_set, if_neg (by decide), List.take_set, List.set_eq_of_length_le (by simp)]

/-- A byte put at index 24 passes exactly when it is the CRC of bytes 1 to 23. -/
theorem hasChecksum_set_checksum {frame : List Byte} (h : frame.length = 26) (c : Byte) :
    hasChecksum (frame.set 24 c) = true ↔ crc8 ((frame.drop 1).take 23) = c := by
  rw [hasChecksum_eq_true_iff, covered_set_checksum]
  simp [h]

/-- Settles O55: the one value is the CRC itself. -/
theorem oneChecksumPasses : Obligations.OneChecksumPasses := by
  intro frame h
  simp only [hasChecksum_set_checksum h]
  exact existsUnique_eq'

/-- The streaming register from index `i` on folds the bytes whose index is 1 to 23 (R104). -/
theorem crc8Stream_eq_foldl (h : Byte) (i : Nat) (bytes : List Byte) :
    crc8Stream h i bytes = ((bytes.take (24 - i)).drop (1 - i)).foldl crc8Update h := by
  induction bytes generalizing h i with
  | nil => simp [crc8Stream]
  | cons b bs ih =>
    rw [crc8Stream, ih, crc8StreamStep]
    by_cases hlow : i = 0
    · subst hlow
      rfl
    by_cases hhigh : 23 < i
    · rw [if_neg (by omega), Nat.sub_eq_zero_of_le (by omega : 24 ≤ i + 1), Nat.sub_eq_zero_of_le (by omega : 24 ≤ i)]
      simp only [List.take_zero, List.drop_nil, List.foldl_nil]
    · obtain ⟨k, hk⟩ : ∃ k, 24 - i = k + 1 := ⟨23 - i, by omega⟩
      rw [if_pos (by omega), hk, Nat.sub_eq_zero_of_le (by omega : 1 ≤ i), Nat.sub_eq_zero_of_le (by omega : 1 ≤ i + 1),
        show 24 - (i + 1) = k by omega]
      rfl

/-- Settles O56: bytes 1 to 23 folded from the initial value. -/
theorem streamingCrcAgrees : Obligations.StreamingCrcAgrees := by
  intro frame _
  rw [crc8Stream_eq_foldl, List.drop_take]
  rfl

/-! ### A changed byte is detected -/

theorem foldl_crc8Update_injective (bytes : List Byte) : Function.Injective fun c => bytes.foldl crc8Update c := by
  induction bytes with
  | nil => exact Function.injective_id
  | cons b bs ih => exact ih.comp (crc8Update_bijective_left b).injective

/-- Two sequences that differ in one byte have different CRCs: the registers differ after that byte and from then on. -/
theorem foldl_crc8Update_set_ne (c : Byte) {bytes : List Byte} {i : Nat} {b : Byte} (hi : i < bytes.length)
    (hb : b ≠ bytes[i]) : (bytes.set i b).foldl crc8Update c ≠ bytes.foldl crc8Update c := by
  induction bytes generalizing c i with
  | nil => simp at hi
  | cons x xs ih =>
    cases i with
    | zero => exact (foldl_crc8Update_injective xs).ne ((crc8Update_bijective_right c).injective.ne hb)
    | succ i => exact ih _ (by simpa using hi) hb

/-- Any change of one of the bytes 1 to 24 of a frame that passes makes it fail (R106 (d) asks it of a one-bit change). -/
theorem hasChecksum_set_eq_false {frame : List Byte} {k : Nat} {b : Byte} (hlength : frame.length = 26)
    (hcheck : hasChecksum frame = true) (hk1 : 1 ≤ k) (hk24 : k ≤ 24) (hb : b ≠ frame.getD k 0#8) :
    hasChecksum (frame.set k b) = false := by
  rw [hasChecksum_eq_true_iff] at hcheck
  rw [← Bool.not_eq_true]
  rcases hk24.eq_or_lt with rfl | hlt
  · rw [hasChecksum_set_checksum hlength, hcheck]
    exact hb.symm
  · have hkept : (frame.set k b).getD 24 0#8 = frame.getD 24 0#8 := by
      simp only [List.getD_eq_getElem?_getD, List.getElem?_set_ne hlt.ne]
    have hcovered : ((frame.set k b).drop 1).take 23 = ((frame.drop 1).take 23).set (k - 1) b := by
      rw [List.drop_set, if_neg (by omega), List.take_set]
    have hbound : k - 1 < ((frame.drop 1).take 23).length := by simp; omega
    have hchanged : b ≠ ((frame.drop 1).take 23)[k - 1] := by
      rw [List.getD_eq_getElem _ _ (by omega)] at hb
      simpa [Nat.sub_add_cancel hk1] using hb
    rw [hasChecksum_eq_true_iff, hkept, ← hcheck, hcovered]
    exact foldl_crc8Update_set_ne crcInit hbound hchanged

theorem hasMarkers_set {frame : List Byte} {k : Nat} (b : Byte) (hk1 : 1 ≤ k) (hk24 : k ≤ 24) :
    hasMarkers (frame.set k b) = hasMarkers frame := by
  simp only [hasMarkers, List.getD_eq_getElem?_getD, List.getElem?_set_ne (show k ≠ 0 by omega),
    List.getElem?_set_ne (show k ≠ 25 by omega)]

/-- Case C of R94. -/
theorem frameOutput_badChecksum (sinkEn : BitVec 7) {bytes : List Byte} (hlength : bytes.length = 26)
    (hmarkers : hasMarkers bytes = true) (hchecksum : hasChecksum bytes = false) :
    frameOutput sinkEn bytes = .diag .checksum := by
  simp [frameOutput, hlength, hmarkers, hchecksum]

/-- Settles O57: the markers still stand, and the checksum no longer passes. -/
theorem singleBitFlipRejected : Obligations.SingleBitFlipRejected := by
  intro s frame k j hlength hmarkers hcheck hk1 hk24 hj hs
  have hflip : frame.getD k 0#8 ^^^ BitVec.twoPow 8 j ≠ frame.getD k 0#8 := by
    rw [Ne, xor_left_eq_self_iff]
    intro hzero
    simpa [hj] using congrArg (BitVec.getLsbD · j) hzero
  refine ⟨_, endOperation_full hs, rfl, ?_⟩
  rw [← frameOutput_badChecksum s.sinkEn hs.length ((hasMarkers_set _ hk1 hk24).trans hmarkers)
    (hasChecksum_set_eq_false hlength hcheck hk1 hk24 hflip)]
  rfl

end Sys2Proof.Machine
end

section
/-! PROOFS. The statements of 43_field_extract.md: the join of two bytes (R110), the field reads (R111, R113 to R119), dispatch to the
attached sinks and what it depends on (R122, R123, R125), and the value and the default rendering of a published pair (R120, R121). -/

namespace Sys2Proof.Machine

/-! ### The join of two bytes and the field reads -/

/-- Settles O58: the join is the two bytes side by side. -/
theorem bigEndianJoin : Obligations.BigEndianJoin := by
  intro hi lo
  refine ⟨be16_toNat hi lo, Nat.le_of_lt_succ (be16 hi lo).isLt, ?_⟩
  rw [be16_eq_append]
  exact ⟨BitVec.extractLsb'_append_eq_left, BitVec.extractLsb'_append_eq_right⟩

/-- Settles O24: a field row is its stage, and the stage joins the two bytes. -/
theorem fieldRowReadsBigEndian : Obligations.FieldRowReadsBigEndian := by
  intro s ch hi lo hhi hlo
  refine ⟨be16 hi lo, ?_, be16_toNat hi lo⟩
  rw [exec_fieldInstr, fieldStage_eq ch s (readFb16_ok hhi hlo)]
  rfl

theorem exec_flddec (s : State) : exec .flddec s = (flddecStage s).outcome := rfl

/-- Settles O25: the seven fields stand at indices 3 to 16. -/
theorem flddecReadsSevenFields : Obligations.FlddecReadsSevenFields := by
  intro s b hb
  have hfields : ∀ ch : Channel, s.readFb16 ch.offset = .ok (be16 (b ch.offset) (b (ch.offset + 1))) := fun ch => by
    have hmin : 3 ≤ ch.offset := by cases ch <;> decide
    have hmax := ch.offset_lt
    exact readFb16_ok (hb _ hmin (by omega)) (hb _ (by omega) (by omega))
  rw [exec_flddec, flddecStage_eq _ hfields]
  rfl

/-- The field reads of a list of channels, in its order. -/
def fieldStages : List Channel → State → StageEnd
  | [] => .pass
  | ch :: chs => fun s => (fieldStage ch s).andThen (fieldStages chs)

theorem flddecStage_eq_fieldStages (s : State) :
    flddecStage s = fieldStages [.pm1_0, .pm2_5, .pm4_0, .pm10_0, .voc, .rh, .temp] s := by
  simp only [flddecStage, fieldStages, StageEnd.andThen_assoc, StageEnd.andThen_pass_self]

/-- Field rows one after another are their stages one after another: no field read outputs anything. -/
theorem runRows_map_fieldInstr (chs : List Channel) (s : State) :
    runRows (chs.map fieldInstr) s = (fieldStages chs s).outcome := by
  induction chs generalizing s with
  | nil => rfl
  | cons ch chs ih => exact runRows_cons_stage (exec_fieldInstr ch s) (OnlyRaw.field ch s).visibleFrom ih

/-- Settles O26: both sides are the stages of the seven channels. -/
theorem flddecIsSevenFieldRows : Obligations.FlddecIsSevenFieldRows := by
  intro s
  rw [exec_flddec, flddecStage_eq_fieldStages, ← runRows_map_fieldInstr]
  rfl

/-! ### Dispatch -/

theorem exec_dispatch (s : State) : exec .dispatch s = (dispatchStage s).outcome := rfl

/-- Settles O27: every attached channel has its raw value. -/
theorem dispatchPublishesAttached : Obligations.DispatchPublishesAttached := by
  intro s r hraw
  rw [exec_dispatch, dispatchStage_eq r hraw, outcome_pass]

/-- A channel is missing when it is attached and has no raw value (R28, R122). -/
theorem missingRaw_eq_none_iff (s : State) :
    s.missingRaw = none ↔ ∀ ch : Channel, s.sinkEn.getLsbD ch.index = true → s.raw.get ch ≠ none := by
  have hall : ∀ ch : Channel, ch ∈ [Channel.pm1_0, .pm2_5, .pm4_0, .pm10_0, .voc, .rh, .temp] := fun ch => by
    cases ch <;> decide
  simp only [State.missingRaw, List.find?_eq_none, hall, State.attached, forall_const, Bool.and_eq_true,
    Option.isNone_iff_eq_none, not_and, ne_eq]
  exact forall_congr' fun ch => imp_not_comm

/-- `DISPATCH` faults on the missing channel, and passes where there is none. -/
theorem exec_dispatch_fault_iff (s : State) :
    (∃ ch, exec .dispatch s = .fault (.rawNoValue ch)) ↔ s.missingRaw ≠ none := by
  rw [exec_dispatch, dispatchStage]
  cases s.missingRaw with
  | none => simp
  | some ch => exact iff_of_true ⟨ch, rfl⟩ (Option.some_ne_none ch)

/-- Settles O30: some attached channel is missing. -/
theorem dispatchNeedsRawValues : Obligations.DispatchNeedsRawValues := by
  intro s
  rw [exec_dispatch_fault_iff, Ne, missingRaw_eq_none_iff]
  push Not
  rfl

/-- A full buffer's verdict does not look at `SINK_EN`: one diagnostic for every `SINK_EN`, or a publish vector for every one (R94). -/
theorem frameOutput_cases {frame : List Byte} (h : frame.length = 26) :
    (∀ sinkEn, frameOutput sinkEn frame = .publish (publishOf sinkEn frame)) ∨
      ∃ c, ∀ sinkEn, frameOutput sinkEn frame = .diag c := by
  cases hmarkers : hasMarkers frame with
  | false => exact .inr ⟨.boundary, fun sinkEn => by simp [frameOutput, h, hmarkers]⟩
  | true =>
    cases hchecksum : hasChecksum frame with
    | false => exact .inr ⟨.checksum, fun sinkEn => frameOutput_badChecksum sinkEn h hmarkers hchecksum⟩
    | true => exact .inl fun sinkEn => frameOutput_valid sinkEn h hmarkers hchecksum

/-- A channel's entry depends on its own sink only (R123). -/
theorem publishOf_get_congr {e e' : BitVec 7} {ch : Channel} (frame : List Byte)
    (h : e'.getLsbD ch.index = e.getLsbD ch.index) : (publishOf e frame).get ch = (publishOf e' frame).get ch := by
  simp only [publishOf, PerChannel.get_tabulate, h]

/-- Settles O49: the same verdict with both `SINK_EN`, and the channel's entry by its own sink. -/
theorem sinkIndependence : Obligations.SinkIndependence := by
  intro s frame other ch hs hch
  have hs' : State.Holds { s with sinkEn := other } frame := ⟨hs.full, hs.length, hs.byte⟩
  refine ⟨_, _, _, _, endOperation_full hs, endOperation_full hs', rfl, rfl, ?_⟩
  obtain hpub | ⟨c, hdiag⟩ := frameOutput_cases hs.length
  · exact .inl ⟨_, _, hpub _, hpub _, publishOf_get_congr frame hch⟩
  · exact .inr ⟨c, hdiag _, hdiag _⟩

/-- Settles O50: both records are the classification of the same bytes for the same `SINK_EN`. -/
theorem decodeDependsOnFrameAlone : Obligations.DecodeDependsOnFrameAlone := by
  intro s t frame hs ht hsink
  refine ⟨_, _, frameOutput s.sinkEn frame, endOperation_full hs, endOperation_full ht, rfl, ?_⟩
  rw [hsink]
  rfl

/-! ### The value and the default rendering of a published pair -/

theorem scale_cases (ch : Channel) : ch.scale = 10 ∨ ch.scale = 100 ∨ ch.scale = 200 := by
  cases ch <;> decide

/-- Settles O59: division by a scale that is not 0 is undone by multiplication. -/
theorem publishedValueIsExact : Obligations.PublishedValueIsExact := by
  intro ch r q
  have hscale := scale_cases ch
  have hne : (ch.scale : Rat) ≠ 0 := Nat.cast_ne_zero.mpr (by omega)
  refine ⟨hscale, div_mul_cancel₀ _ hne, ?_⟩
  rw [Pub.value, Pub.value, div_left_inj' hne, Nat.cast_inj, BitVec.toNat_inj]

/-- Rounding to nearest: the quotient or the next integer, half a divisor away at most, and even where it is exactly half away. -/
theorem divNearestEven_spec (num : Nat) {den : Nat} (hden : 0 < den) :
    (num / den ≤ divNearestEven num den ∧ divNearestEven num den ≤ num / den + 1) ∧
    (2 * divNearestEven num den * den ≤ 2 * num + den ∧ 2 * num ≤ 2 * divNearestEven num den * den + den) ∧
    ((2 * divNearestEven num den * den = 2 * num + den ∨ 2 * num = 2 * divNearestEven num den * den + den) →
      divNearestEven num den % 2 = 0) := by
  have hdiv := Nat.div_add_mod' num den
  have hmod := Nat.mod_lt num hden
  have hup : 2 * (num / den + 1) * den = 2 * (num / den * den) + 2 * den := by ring
  have hdown : 2 * (num / den) * den = 2 * (num / den * den) := by ring
  unfold divNearestEven
  dsimp only
  split_ifs <;> omega

/-- The leading bit of `raw * 2^32 / scale` for the 16-bit raw values and scales up to 256. -/
theorem log2_scaled_bounds {raw scale : Nat} (hraw : 0 < raw) (hraw16 : raw < 2 ^ 16) (hscale : 0 < scale)
    (hscale8 : scale ≤ 2 ^ 8) : 24 ≤ Nat.log2 (raw * 2 ^ 32 / scale) ∧ Nat.log2 (raw * 2 ^ 32 / scale) < 48 := by
  have hlow : 2 ^ 24 ≤ raw * 2 ^ 32 / scale := (Nat.le_div_iff_mul_le hscale).mpr (by omega)
  have hhigh : raw * 2 ^ 32 / scale < 2 ^ 48 := (Nat.div_le_self _ _).trans_lt (by omega)
  have hne : raw * 2 ^ 32 / scale ≠ 0 := by omega
  exact ⟨(Nat.le_log2 hne).mpr hlow, (Nat.log2_lt hne).mpr hhigh⟩

/-- The shift brings `raw / scale` into 2^23 to 2^24. -/
theorem binary32Shift_spec {raw scale : Nat} (hraw : 0 < raw) (hraw16 : raw < 2 ^ 16) (hscale : 0 < scale)
    (hscale8 : scale ≤ 2 ^ 8) : binary32Shift raw scale ≤ 31 ∧
      2 ^ 23 * scale ≤ raw * 2 ^ binary32Shift raw scale ∧ raw * 2 ^ binary32Shift raw scale < 2 ^ 24 * scale := by
  obtain ⟨hlow, hhigh⟩ := log2_scaled_bounds hraw hraw16 hscale hscale8
  have hne : raw * 2 ^ 32 / scale ≠ 0 := by
    intro h
    rw [h] at hlow
    exact absurd hlow (by decide)
  have hlead := (Nat.le_div_iff_mul_le hscale).mp (Nat.log2_self_le hne)
  have hnext := (Nat.div_lt_iff_lt_mul hscale).mp (Nat.lt_log2_self (n := raw * 2 ^ 32 / scale))
  unfold binary32Shift
  generalize Nat.log2 (raw * 2 ^ 32 / scale) = l at *
  obtain ⟨d, rfl⟩ := Nat.exists_eq_add_of_le (show 23 ≤ l by omega)
  have hpow : 2 ^ (55 - (23 + d)) * 2 ^ d = 2 ^ 32 := by
    rw [← pow_add]
    congr 1
    omega
  refine ⟨by omega, ?_, ?_⟩
  · refine Nat.le_of_mul_le_mul_right ?_ (Nat.two_pow_pos d)
    calc 2 ^ 23 * scale * 2 ^ d = 2 ^ (23 + d) * scale := by ring
      _ ≤ raw * 2 ^ 32 := hlead
      _ = raw * 2 ^ (55 - (23 + d)) * 2 ^ d := by rw [mul_assoc, hpow]
  · refine Nat.lt_of_mul_lt_mul_right (a := 2 ^ d) ?_
    calc raw * 2 ^ (55 - (23 + d)) * 2 ^ d = raw * 2 ^ 32 := by rw [mul_assoc, hpow]
      _ < 2 ^ (23 + d + 1) * scale := hnext
      _ = 2 ^ 24 * scale * 2 ^ d := by ring

/-- The default rendering as a number: a 24-bit significand, or 2^24, under its exponent fits 32 bits. -/
theorem binary32_toNat {raw scale : Nat} (hraw : raw ≠ 0) (h : binary32Significand raw scale ≤ 2 ^ 24) :
    (binary32 raw scale).toNat =
      (150 - binary32Shift raw scale) * 2 ^ 23 + binary32Significand raw scale - 2 ^ 23 := by
  rw [binary32, if_neg hraw, BitVec.toNat_ofNat, Nat.mod_eq_of_lt]
  omega

/-- Settles O60: the significand is `raw * 2^k / scale` rounded, for the shift `k` that brings it into 2^23 to 2^24. -/
theorem defaultFloatIsNearestEven : Obligations.DefaultFloatIsNearestEven := by
  intro raw ch
  have hscale := scale_cases ch
  refine ⟨fun h => by rw [h]; rfl, fun h => ?_⟩
  have hraw : raw.toNat ≠ 0 := fun e => h (BitVec.eq_of_toNat_eq e)
  obtain ⟨hk, hlow, hhigh⟩ := binary32Shift_spec (scale := ch.scale) (Nat.pos_of_ne_zero hraw) raw.isLt (by omega) (by omega)
  obtain ⟨⟨hfloor, hceil⟩, hnear, htie⟩ :=
    divNearestEven_spec (raw.toNat * 2 ^ binary32Shift raw.toNat ch.scale) (den := ch.scale) (by omega)
  have hq := (Nat.le_div_iff_mul_le (show 0 < ch.scale by omega)).mpr hlow
  have hq' := (Nat.div_lt_iff_lt_mul (show 0 < ch.scale by omega)).mpr hhigh
  rw [← mul_assoc] at hnear htie
  have hm : binary32Significand raw.toNat ch.scale ≤ 2 ^ 24 := hceil.trans hq'
  exact ⟨binary32Significand raw.toNat ch.scale, _, hq.trans hfloor, hm, by omega, hnear, htie, ⟨hlow, hhigh⟩,
    binary32_toNat hraw hm⟩

end Sys2Proof.Machine
end

section
/-! PROOFS. The statements of 44_request.md: the bytes of the Request Frame (R130, R131) and `REQ` between the bytes of a Raw Frame (R133).
The second holds because neither `PUSH` nor `END` reads the observation: records output earlier stay in front of what it outputs. -/

namespace Sys2Proof.Machine

theorem exec_req (s : State) : exec .req s = .next (s.emit (.transmit (requestBytes s.reqPad0 s.reqPad1))) := rfl

/-- Settles O37: the word has `op` 3, and the record is the six literals before the padding. -/
theorem reqTransmitsRequestFrame : Obligations.ReqTransmitsRequestFrame := ⟨decode_cmd_req (by decide), exec_req⟩

/-! ### Records output earlier -/

/-- The block with the records `os` output before those it has output. -/
def State.afterOuts (os : List Output) (s : State) : State := { s with outs := os ++ s.outs }

/-- A stage's end with the records `os` output before it. -/
def StageEnd.afterOuts (os : List Output) : StageEnd → StageEnd
  | .pass s => .pass (s.afterOuts os)
  | .reject c s => .reject c (s.afterOuts os)
  | .stop f => .stop f

/-- An outcome with the records `os` output before it. -/
def resultAfterOuts (os : List Output) : Result → Result
  | .next s => .next (s.afterOuts os)
  | .fault f => .fault f
  | .refused r => .refused r

theorem resultAfterOuts_eq_next {os : List Output} {r : Result} {v : State} (h : resultAfterOuts os r = .next v) :
    ∃ w, r = .next w ∧ v = w.afterOuts os := by
  cases r with
  | next w =>
    cases h
    exact ⟨w, rfl, rfl⟩
  | fault f => cases h
  | refused e => cases h

/-- Any observation is records output before none. -/
theorem State.afterOuts_of_noOuts (os : List Output) (s : State) :
    State.afterOuts os { s with outs := [] } = { s with outs := os } := by
  simp [State.afterOuts]

theorem State.writeFb_afterOuts (os : List Output) (s : State) (i : Nat) (b : Byte) :
    (s.afterOuts os).writeFb i b = (s.writeFb i b).afterOuts os := rfl

theorem State.setLen_afterOuts (os : List Output) (s : State) (n : BitVec 5) :
    (s.afterOuts os).setLen n = (s.setLen n).afterOuts os := rfl

theorem State.emit_afterOuts (os : List Output) (s : State) (o : Output) :
    (s.afterOuts os).emit o = (s.emit o).afterOuts os := by
  simp [State.afterOuts, State.emit]

theorem readFb_afterOuts (os : List Output) (s : State) (i : Nat) : (s.afterOuts os).readFb i = s.readFb i :=
  readFb_congr rfl rfl i

/-! ### `PUSH` and `END` do not read the observation -/

theorem pushByte_afterOuts (os : List Output) (s : State) (b : Byte) :
    (s.afterOuts os).pushByte b = (s.pushByte b).afterOuts os := by
  have hlen : (s.afterOuts os).len = s.len := rfl
  simp only [State.pushByte, hlen]
  split_ifs <;> simp only [State.writeFb_afterOuts, State.setLen_afterOuts, State.emit_afterOuts]

/-- A stage that does the same whatever was output before it. -/
def IgnoresOuts (stage : State → StageEnd) : Prop := ∀ os s, stage (s.afterOuts os) = (stage s).afterOuts os

theorem IgnoresOuts.andThen {stage next : State → StageEnd} (hstage : IgnoresOuts stage) (hnext : IgnoresOuts next) :
    IgnoresOuts fun s => (stage s).andThen next := by
  intro os s
  simp only [hstage os s]
  cases stage s with
  | pass t => exact hnext os t
  | reject c t => rfl
  | stop f => rfl

theorem lenchkStage_ignoresOuts : IgnoresOuts lenchkStage := by
  intro os s
  have hok : (s.afterOuts os).lengthOk = s.lengthOk := rfl
  rw [lenchkStage, lenchkStage, hok]
  cases s.lengthOk <;> rfl

theorem bndchkStage_ignoresOuts : IgnoresOuts bndchkStage := by
  intro os s
  have hok : (s.afterOuts os).boundaryOk = s.boundaryOk := by simp only [State.boundaryOk, readFb_afterOuts]
  rw [bndchkStage, bndchkStage, hok]
  rcases s.boundaryOk with e | _ | _ <;> rfl

theorem crcchkStage_ignoresOuts : IgnoresOuts crcchkStage := by
  intro os s
  have hrange : (s.afterOuts os).readFbRange crcFirst crcCount = s.readFbRange crcFirst crcCount :=
    readFbRange_congr rfl rfl _ _
  have hok : (s.afterOuts os).checksumOk = s.checksumOk := by simp only [State.checksumOk, hrange, readFb_afterOuts]
  rw [crcchkStage, crcchkStage, hok]
  rcases s.checksumOk with e | _ | _ <;> rfl

theorem fieldStage_ignoresOuts (ch : Channel) : IgnoresOuts (fieldStage ch) := by
  intro os s
  have hread : (s.afterOuts os).readFb16 ch.offset = s.readFb16 ch.offset := readFb16_congr rfl rfl _
  rw [fieldStage, fieldStage, hread]
  cases s.readFb16 ch.offset <;> rfl

theorem flddecStage_ignoresOuts : IgnoresOuts flddecStage :=
  ((((((fieldStage_ignoresOuts .pm1_0).andThen (fieldStage_ignoresOuts .pm2_5)).andThen (fieldStage_ignoresOuts .pm4_0)).andThen
    (fieldStage_ignoresOuts .pm10_0)).andThen (fieldStage_ignoresOuts .voc)).andThen (fieldStage_ignoresOuts .rh)).andThen
    (fieldStage_ignoresOuts .temp)

theorem dispatchStage_ignoresOuts : IgnoresOuts dispatchStage := by
  intro os s
  have hmissing : (s.afterOuts os).missingRaw = s.missingRaw := rfl
  rw [dispatchStage, dispatchStage, hmissing]
  cases s.missingRaw with
  | some ch => rfl
  | none => exact congrArg StageEnd.pass (State.emit_afterOuts os s _)

theorem decodePipeline_ignoresOuts : IgnoresOuts decodePipeline :=
  (((lenchkStage_ignoresOuts.andThen bndchkStage_ignoresOuts).andThen crcchkStage_ignoresOuts).andThen
    flddecStage_ignoresOuts).andThen dispatchStage_ignoresOuts

theorem closeFrame_afterOuts (os : List Output) (r : StageEnd) :
    closeFrame (r.afterOuts os).outcome = resultAfterOuts os (closeFrame r.outcome) := by
  cases r with
  | pass s => rfl
  | reject c s => exact congrArg (fun t => Host.Outcome.next (State.discard t).discard) (State.emit_afterOuts os s (.diag c))
  | stop f => rfl

theorem endOperation_afterOuts (os : List Output) (s : State) :
    endOperation (s.afterOuts os) = resultAfterOuts os (endOperation s) := by
  by_cases h0 : s.len = 0#5
  · rw [endOperation_empty h0, endOperation_empty (s := s.afterOuts os) h0, State.emit_afterOuts]
    rfl
  · have h0' : (s.afterOuts os).len ≠ 0#5 := h0
    rw [endOperation, endOperation, if_neg h0, if_neg h0', decodePipeline_ignoresOuts, closeFrame_afterOuts]

theorem exec_afterOuts {i : Instr} (hi : i = .endOp ∨ ∃ b, i = .push b) (os : List Output) (s : State) :
    exec i (s.afterOuts os) = resultAfterOuts os (exec i s) := by
  obtain rfl | ⟨b, rfl⟩ := hi
  · exact endOperation_afterOuts os s
  · exact congrArg Host.Outcome.next (pushByte_afterOuts os s b)

/-- A `PUSH` or an `END` outputs one record (R8). -/
theorem exec_push_or_endOp_outs {i : Instr} {s v : State} (hi : i = .endOp ∨ ∃ b, i = .push b)
    (h : exec i s = .next v) : ∃ o, v.outs = s.outs ++ [o] := by
  obtain rfl | ⟨b, rfl⟩ := hi
  · obtain ⟨o, ho, _⟩ := exec_endOp_outs h
    exact ⟨o, ho⟩
  · exact ⟨.silent, exec_push_outs h⟩

/-- A `PUSH` or an `END` does the same and outputs the same record on every observation. -/
theorem exec_on_other_outs {i : Instr} {s v : State} (hi : i = .endOp ∨ ∃ b, i = .push b) (os : List Output)
    (h : exec i s = .next v) :
    ∃ o, v.outs = s.outs ++ [o] ∧ exec i { s with outs := os } = .next { v with outs := os ++ [o] } := by
  have hexec (os' : List Output) :
      exec i { s with outs := os' } = resultAfterOuts os' (exec i { s with outs := [] }) := by
    rw [← State.afterOuts_of_noOuts, exec_afterOuts hi]
  obtain ⟨w, hw, rfl⟩ := resultAfterOuts_eq_next ((hexec s.outs).symm.trans h)
  obtain ⟨o, ho⟩ := exec_push_or_endOp_outs hi hw
  rw [List.nil_append] at ho
  refine ⟨o, congrArg (s.outs ++ ·) ho, ?_⟩
  rw [hexec os, hw, ← ho]
  rfl

/-- Settles O39: a `REQ` changes the observation alone. -/
theorem reqDoesNotDisturbFrame : Obligations.ReqDoesNotDisturbFrame := by
  intro s t v i hi hreq hexec
  cases hreq
  exact exec_on_other_outs hi _ hexec

end Sys2Proof.Machine
end

section
/-! PROOFS. The statements of 60_exceptions.md: the cause an `END` reports (R142), the ends a step can have (R151) and the `END` of an
empty buffer (R152). -/

namespace Sys2Proof.Machine

/-! ### The cause reported -/

/-- Case B of R94, whatever the checksum. -/
theorem frameOutput_badMarkers (sinkEn : BitVec 7) {bytes : List Byte} (hlength : bytes.length = 26)
    (hmarkers : hasMarkers bytes = false) : frameOutput sinkEn bytes = .diag .boundary := by
  simp [frameOutput, hlength, hmarkers]

/-- An `END` of a full buffer empties it and outputs the classification of its bytes (R81, R94). -/
theorem exec_endOp_outputs {s : State} {frame : List Byte} {o : Output} (hs : s.Holds frame)
    (ho : frameOutput s.sinkEn frame = o) : ∃ t, exec .endOp s = .next t ∧ t.len = 0#5 ∧ t.outs = s.outs ++ [o] :=
  ⟨_, endOperation_full hs, rfl, congrArg (s.outs ++ [·]) ho⟩

/-- Settles O18: stage 1 rejects a wrong length, and a full buffer is in case B or C of R94. -/
theorem endReportsFirstFailure : Obligations.EndReportsFirstFailure := by
  refine ⟨fun s h0 h26 => ⟨_, endOperation_wrongLength h0 h26, rfl, rfl⟩, fun s frame hs => ⟨fun hbad => ?_, ?_⟩⟩
  · rw [← hasMarkers_eq_true_iff, Bool.not_eq_true] at hbad
    exact exec_endOp_outputs hs (frameOutput_badMarkers s.sinkEn hs.length hbad)
  · intro hmarkers hbad
    rw [← hasMarkers_eq_true_iff] at hmarkers
    rw [Ne, ← hasChecksum_eq_true_iff, Bool.not_eq_true] at hbad
    exact exec_endOp_outputs hs (frameOutput_badChecksum s.sinkEn hs.length hmarkers hbad)

/-! ### The ends of a step -/

/-- An item that is no instruction is a command word of a reserved `op`, below 0x100 or from 0x400 on (R61). -/
theorem decode_error_reserved {inp : Input} {e : BadWord} (h : decode inp = .error e) :
    ∃ w, inp = .cmd w ∧ (w.toNat < 0x100 ∨ 0x400 ≤ w.toNat) := by
  cases inp with
  | rst | rsp | reqf => cases h
  | cmd w =>
    have h1 : cmdOp w ≠ 1#3 := fun hop => by cases (decode_cmd_push hop).symm.trans h
    have h2 : cmdOp w ≠ 2#3 := fun hop => by cases (decode_cmd_endOp hop).symm.trans h
    have h3 : cmdOp w ≠ 3#3 := fun hop => by cases (decode_cmd_req hop).symm.trans h
    have hop : (cmdOp w).toNat < 1 ∨ 4 ≤ (cmdOp w).toNat := by bv_omega
    rw [cmdOp_toNat] at hop
    exact ⟨w, rfl, by omega⟩

/-- Under the invariant every row that can be presented completes: the only reads of the buffer are those of `END`. -/
theorem State.Inv.exec_completes {inp : Input} {i : Instr} {s : State} (hs : s.Inv) (hi : decode inp = .ok i) :
    ∃ t, exec i s = .next t := by
  obtain ⟨b, rfl⟩ | rfl | rfl | rfl | ⟨f, rfl⟩ | ⟨p0, p1, rfl⟩ := decode_ok_cases hi
  · exact ⟨_, exec_push b s⟩
  · exact hs.endOperation_completes
  · exact ⟨_, exec_req s⟩
  · exact ⟨_, rfl⟩
  · rw [exec_rsp]
    exact (hs.pushBytes f.bytes).endOperation_completes
  · exact ⟨_, rfl⟩

/-- Settles O44: a step is idle, or executes a row that can be presented, or refuses a reserved command word. -/
theorem stepNeverFaults : Obligations.StepNeverFaults := by
  intro s hs
  obtain ⟨-, e⟩ | ⟨inp, rest, i, -, hi, e⟩ | ⟨inp, rest, bad, hinputs, hbad, -⟩ := step_cases s
  · exact .inl ⟨s, e⟩
  · rw [e]
    exact .inl ((hs.setInputs rest).exec_completes hi)
  · obtain ⟨w, rfl, hw⟩ := decode_error_reserved hbad
    exact .inr ⟨w, rest, hinputs, hw, reservedCommandRefused s w rest hinputs hw⟩

/-- Settles O2: a step with nothing presented takes no item. -/
theorem stepIdleWithoutInput : Obligations.StepIdleWithoutInput := fun _ => step_idle

/-! ### `END` of an empty buffer -/

/-- Settles O15: the first branch of `END`, which runs no stage. -/
theorem endOfEmptyBufferIsSilent : Obligations.EndOfEmptyBufferIsSilent := fun _ => endOperation_empty

end Sys2Proof.Machine
end

section
/-! PROOFS. The statements of 70_reset_and_hazards.md: `RESET` (R160), an empty buffer as the one fresh start (R161), a frame split over
two drains (R163) and a frame behind other bytes (R164). For R161 two states are related that have the same length, readable bytes,
configuration and presented items: every step keeps the relation and outputs the same records on both sides. -/

namespace Sys2Proof.Machine

/-! ### `RESET` -/

theorem exec_reset (s : State) : exec .reset s = .next (s.setLen 0#5) := rfl

/-- Settles O40: both clauses are the one assignment `LEN <- 0`. -/
theorem resetClearsLength : Obligations.ResetClearsLength := fun s => ⟨exec_reset s, exec_reset { s with len := 0#5 }⟩

/-! ### A frame behind other bytes -/

/-- From any length, 28 to 31 included, pushes lengthen the buffer to 27 at least or by one each (R22, R80; log 15). -/
theorem le_pushBytes_len (s : State) (bs : List Byte) :
    min (s.len.toNat + bs.length) 27 ≤ (s.pushBytes bs).len.toNat := by
  induction bs generalizing s with
  | nil => exact Nat.min_le_left _ _
  | cons b bs ih =>
    have hpush := pushByte_len s b
    have hrest := ih (s.pushByte b)
    rw [pushBytes_cons, List.length_cons]
    split_ifs at hpush <;> omega

/-- Settles O34: the 26 pushes bring a buffer that is not empty past 26, so its `END` rejects at stage 1. -/
theorem rspAfterBytesRejected : Obligations.RspAfterBytesRejected := by
  intro s f hlen
  have hpos : s.len.toNat ≠ 0 := fun h => hlen (BitVec.eq_of_toNat_eq h)
  have hbytes := bytes_length f
  rw [exec_rsp]
  generalize f.bytes = bs at *
  have hlong := le_pushBytes_len s bs
  have h0 : (s.pushBytes bs).len ≠ 0#5 := by bv_omega
  have h26 : (s.pushBytes bs).len ≠ 26#5 := by bv_omega
  refine ⟨_, endOperation_wrongLength h0 h26, ?_, rfl, fun a ha => ?_, fun a ha => ?_, fun i hle hi => ?_, ?_⟩
  · rw [State.raiseReject_outs, pushBytes_outs, hbytes]
  · rw [State.raiseReject_fb, pushBytes_read, if_neg (by omega)]
  · rw [State.raiseReject_fb, pushBytes_read, if_neg (by omega)]
  · rw [State.raiseReject_fb, pushBytes_read, if_pos (by omega)]
  · rw [pushBytes_eq]
    rfl

/-! ### A frame split over two drains -/

/-- A drain of neither 0 nor 26 bytes presented to an empty buffer is one reject with cause 1 (R94), and leaves an empty buffer. -/
theorem run_drainInputs_wrongLength {s : State} {bytes : List Byte} {rest : List Input} (hlen : s.len = 0#5)
    (h0 : bytes.length ≠ 0) (h26 : bytes.length ≠ 26) (hinputs : s.inputs = drainInputs bytes ++ rest) :
    ∃ t, Host.Core.run core (bytes.length + 1) s = .next t ∧ t.len = 0#5 ∧ t.inputs = rest ∧
      t.outs = s.outs ++ List.replicate bytes.length .silent ++ [.diag .length] := by
  obtain ⟨t, hrun, htinputs, htlen, houts, -⟩ := drainOutputsClassification s bytes rest hlen hinputs
  rw [frameOutput_wrongLength s.sinkEn h0 h26] at houts
  exact ⟨t, hrun, htlen, htinputs, houts⟩

/-- Settles O36: each part is a drain of 1 to 25 bytes, and the first leaves an empty buffer to the second. -/
theorem splitFrameIsTwoRejects : Obligations.SplitFrameIsTwoRejects := by
  intro s bytes k rest hlength hpos hk hlen hinputs
  have htake : (bytes.take k).length = k := by rw [List.length_take]; omega
  have hdrop : (bytes.drop k).length = 26 - k := by rw [List.length_drop, hlength]
  rw [List.append_assoc] at hinputs
  obtain ⟨u, hrun₁, hulen, huinputs, huouts⟩ := run_drainInputs_wrongLength hlen (by omega) (by omega) hinputs
  obtain ⟨t, hrun₂, htlen, htinputs, htouts⟩ := run_drainInputs_wrongLength hulen (by omega) (by omega) huinputs
  rw [htake] at hrun₁ huouts
  rw [hdrop] at hrun₂ htouts
  refine ⟨t, ?_, htlen, htinputs, by rw [htouts, huouts]⟩
  rw [show 28 = (k + 1) + (26 - k + 1) by omega, core_run_add core _ _ hrun₁]
  exact hrun₂

/-! ### States that show no difference -/

/-- What a `PUSH` changes of what can be read: the byte it stores becomes readable (R21, R80). -/
theorem pushByte_readFb (s : State) (b : Byte) (i : Nat) :
    (s.pushByte b).readFb i = if s.len.toNat ≤ 25 ∧ i = s.len.toNat then .ok b else s.readFb i := by
  split_ifs with hnew
  · obtain ⟨hlen, rfl⟩ := hnew
    exact pushByte_readFb_new b hlen
  by_cases hold : i < min s.len.toNat 26
  · exact pushByte_readFb_old b hold
  · have hlen := pushByte_len s b
    rw [readFb_of_le (s := s) (by omega), readFb_of_le (by split_ifs at hlen <;> omega)]

theorem State.Readable.pushByte {s : State} (h : s.Readable) (b : Byte) : (s.pushByte b).Readable := by
  intro i hi
  rw [pushByte_readFb]
  split_ifs with hnew
  · exact ⟨b, rfl⟩
  · rw [pushByte_len] at hi
    exact h i (by split_ifs at hi <;> omega)

/-- A full buffer whose bytes have values holds a frame (R21). -/
theorem State.Readable.exists_holds {s : State} (h : s.Readable) (hfull : s.len = 26#5) : ∃ frame, s.Holds frame := by
  have hval (i : Fin 26) : ∃ b, s.readFb i = .ok b := h i (by rw [hfull]; exact i.isLt)
  choose g hg using hval
  refine ⟨List.ofFn g, hfull, List.length_ofFn, fun i hi => ?_⟩
  rw [hg ⟨i, hi⟩, List.getD_eq_getElem _ _ (by simpa using hi), List.getElem_ofFn]

/-- Two states between which the block shows no difference: the same length, readable bytes, configuration and presented items, and
the same records `os` output since the observations `a` and `b`. Stale bytes and transient values are free (R161). -/
structure State.Alike (a b : List Output) (s t : State) : Prop where
  len : t.len = s.len
  sinkEn : t.sinkEn = s.sinkEn
  reqPad0 : t.reqPad0 = s.reqPad0
  reqPad1 : t.reqPad1 = s.reqPad1
  inputs : t.inputs = s.inputs
  readable : s.Readable
  readFb : ∀ i, t.readFb i = s.readFb i
  outs : ∃ os, s.outs = a ++ os ∧ t.outs = b ++ os

section Alike

variable {a b : List Output} {s t : State}

theorem readFb_of_empty (h : s.len = 0#5) (i : Nat) : s.readFb i = .error (.fbNoValue i) :=
  readFb_of_le (by simp [h])

theorem State.Alike.setInputs (h : s.Alike a b t) (is : List Input) : (s.setInputs is).Alike a b (t.setInputs is) :=
  { h with inputs := rfl }

theorem State.Alike.emit (h : s.Alike a b t) (o : Output) : (s.emit o).Alike a b (t.emit o) := by
  obtain ⟨os, hs, ht⟩ := h.outs
  refine { h with outs := ⟨os ++ [o], ?_, ?_⟩ }
  · rw [State.emit_outs, hs, List.append_assoc]
  · rw [State.emit_outs, ht, List.append_assoc]

/-- An emptied buffer has no readable byte, whatever it held. -/
theorem State.Alike.setLen_zero (h : s.Alike a b t) : (s.setLen 0#5).Alike a b (t.setLen 0#5) :=
  { h with
    len := rfl
    readable := .of_empty rfl
    readFb := fun i => by rw [readFb_of_empty (s := t.setLen 0#5) rfl, readFb_of_empty rfl] }

/-- A discard leaves what an emptied buffer leaves: the transient values show no difference. -/
theorem State.Alike.discard (h : s.Alike a b t) : s.discard.Alike a b t.discard := { h.setLen_zero with }

theorem State.Alike.pushByte (h : s.Alike a b t) (v : Byte) : (s.pushByte v).Alike a b (t.pushByte v) where
  len := BitVec.eq_of_toNat_eq (by rw [pushByte_len, pushByte_len, h.len])
  sinkEn := by rw [pushByte_sinkEn, pushByte_sinkEn, h.sinkEn]
  reqPad0 := by rw [pushByte_reqPad0, pushByte_reqPad0, h.reqPad0]
  reqPad1 := by rw [pushByte_reqPad1, pushByte_reqPad1, h.reqPad1]
  inputs := by rw [pushByte_inputs, pushByte_inputs, h.inputs]
  readable := h.readable.pushByte v
  readFb i := by rw [pushByte_readFb, pushByte_readFb, h.len, h.readFb]
  outs := by rw [pushByte_outs, pushByte_outs]; exact (h.emit .silent).outs

theorem State.Alike.pushBytes (h : s.Alike a b t) (bs : List Byte) : (s.pushBytes bs).Alike a b (t.pushBytes bs) := by
  induction bs generalizing s t with
  | nil => exact h
  | cons v bs ih => exact ih (h.pushByte v)

theorem State.Alike.holds (h : s.Alike a b t) {frame : List Byte} (hs : s.Holds frame) : t.Holds frame :=
  ⟨h.len.trans hs.full, hs.length, fun i hi => (h.readFb i).trans (hs.byte i hi)⟩

/-- Two outcomes that are next states between which the block shows no difference. -/
def NextAlike (a b : List Output) (r r' : Result) : Prop := ∃ s t, r = .next s ∧ r' = .next t ∧ s.Alike a b t

/-- `END` completes on both states with the same record: by its length, silence, the frame's classification or a reject (R81). -/
theorem State.Alike.endOperation (h : s.Alike a b t) : NextAlike a b (endOperation s) (endOperation t) := by
  have hsame (o : Output) : (s.emit o).discard.Alike a b (t.emit o).discard := (h.emit o).discard
  by_cases h0 : s.len = 0#5
  · exact ⟨_, _, endOperation_empty h0, endOperation_empty (h.len.trans h0), hsame .silent⟩
  by_cases h26 : s.len = 26#5
  · obtain ⟨frame, hframe⟩ := h.readable.exists_holds h26
    refine ⟨_, _, endOperation_full hframe, endOperation_full (h.holds hframe), ?_⟩
    rw [h.sinkEn]
    exact hsame _
  · exact ⟨_, _, endOperation_wrongLength h0 h26, endOperation_wrongLength (h.len ▸ h0) (h.len ▸ h26),
      hsame (.diag .length)⟩

/-- Every row that can be presented completes on both states and shows no difference. -/
theorem State.Alike.exec (h : s.Alike a b t) {inp : Input} {i : Instr} (hi : decode inp = .ok i) :
    NextAlike a b (exec i s) (exec i t) := by
  obtain ⟨v, rfl⟩ | rfl | rfl | rfl | ⟨f, rfl⟩ | ⟨p0, p1, rfl⟩ := decode_ok_cases hi
  · exact ⟨_, _, exec_push v s, exec_push v t, h.pushByte v⟩
  · exact h.endOperation
  · refine ⟨_, _, exec_req s, exec_req t, ?_⟩
    rw [h.reqPad0, h.reqPad1]
    exact h.emit _
  · exact ⟨_, _, exec_reset s, exec_reset t, h.setLen_zero⟩
  · rw [exec_rsp, exec_rsp]
    exact (h.pushBytes f.bytes).endOperation
  · exact ⟨_, _, rfl, rfl, h.emit (.transmit (requestBytes p0 p1))⟩

/-- A step shows no difference: both states are idle, execute the same row or refuse the same word. -/
theorem State.Alike.step (h : s.Alike a b t) :
    NextAlike a b (step s) (step t) ∨ ∃ r, step s = .refused r ∧ step t = .refused r := by
  obtain ⟨hnone, e⟩ | ⟨inp, rest, i, hinputs, hi, e⟩ | ⟨inp, rest, bad, hinputs, hbad, e⟩ := step_cases s
  · exact .inl ⟨s, t, e, step_idle (h.inputs.trans hnone), h⟩
  · have et := step_cons (h.inputs.trans hinputs)
    rw [hi] at et
    rw [e, et]
    exact .inl ((h.setInputs rest).exec hi)
  · have et := step_cons (h.inputs.trans hinputs)
    rw [hbad] at et
    exact .inr ⟨_, e, et⟩

/-- Any number of steps shows no difference. -/
theorem State.Alike.run (h : s.Alike a b t) (n : Nat) :
    NextAlike a b (Host.Core.run core n s) (Host.Core.run core n t) ∨
      ∃ r, Host.Core.run core n s = .refused r ∧ Host.Core.run core n t = .refused r := by
  induction n generalizing s t with
  | zero => exact .inl ⟨s, t, rfl, rfl, h⟩
  | succ n ih =>
    obtain ⟨s', t', es, et, h'⟩ | ⟨r, es, et⟩ := h.step
    · rw [run_next n es, run_next n et]
      exact ih h'
    · exact .inr ⟨r, run_refused n es, run_refused n et⟩

end Alike

/-- Settles O51: two empty buffers with the same configuration and presented items show no difference at first, so they never do. -/
theorem emptyBufferLeavesNoTrace : Obligations.EmptyBufferLeavesNoTrace := by
  intro s t n hs ht hinputs hsink hpad0 hpad1
  have halike : s.Alike s.outs t.outs t :=
    { len := ht.trans hs.symm
      sinkEn := hsink.symm
      reqPad0 := hpad0.symm
      reqPad1 := hpad1.symm
      inputs := hinputs.symm
      readable := .of_empty hs
      readFb := fun i => by rw [readFb_of_empty ht, readFb_of_empty hs]
      outs := ⟨[], by simp, by simp⟩ }
  obtain ⟨s', t', es, et, h'⟩ | hrefused := halike.run n
  · obtain ⟨os, houts, houtt⟩ := h'.outs
    exact .inl ⟨s', t', os, es, et, houts, houtt⟩
  · exact .inr hrefused

end Sys2Proof.Machine
end
